-- ==== Sys2Proof/Config.lean ====
section
/-!
DEFINITION. The width policy and the constants it fixes (spec/00_scope.md R8, R9, R10).
The policy is fixed when an instance is made and no operation reads or writes it as data
(spec/10_state.md R24), so these are functions of the policy and no state.
-/

namespace Sys2Proof

/-- The two width policies; a model refuses any other (R7, R8). -/
inductive WidthPolicy where
  | binary32
  | binary64
deriving DecidableEq, Repr

/-- `N`, the width of a RawBits (R8). -/
@[reducible] def WidthPolicy.totalBits : WidthPolicy → Nat
  | .binary32 => 32
  | .binary64 => 64

/-- `EB`, the width of the exponent field (R8). -/
@[reducible] def WidthPolicy.expBits : WidthPolicy → Nat
  | .binary32 => 8
  | .binary64 => 11

/-- `MB`, the width of the stored mantissa, without the implicit bit (R8). -/
@[reducible] def WidthPolicy.manBits : WidthPolicy → Nat
  | .binary32 => 23
  | .binary64 => 52

/-- `p = MB + 1`, the width of a mantissa with its implicit bit (R9). -/
@[reducible] def WidthPolicy.sigBits (w : WidthPolicy) : Nat := w.manBits + 1

/-- `EXT_W = 2N`, the width of an ExtendedMantissa and of the rounding engine's ports (R10). -/
@[reducible] def WidthPolicy.extBits (w : WidthPolicy) : Nat := 2 * w.totalBits

/-- `BIAS = 2^(EB-1) - 1` (R8). -/
def WidthPolicy.bias (w : WidthPolicy) : Nat := 2 ^ (w.expBits - 1) - 1

/-- `EMAXB = 2^EB - 1`, the largest value of the exponent field (R8). -/
def WidthPolicy.maxBiasedExp (w : WidthPolicy) : Nat := 2 ^ w.expBits - 1

/-- `EMIN = 1 - BIAS` (R9). -/
def WidthPolicy.minExp (w : WidthPolicy) : Int := 1 - (w.bias : Int)

/-- `EMAX = EMAXB - 1 - BIAS`, the largest unbiased exponent of a finite value (R9). -/
def WidthPolicy.maxExp (w : WidthPolicy) : Int := (w.maxBiasedExp : Int) - 1 - (w.bias : Int)

/-- `HIDDEN = 1 << MB`, the implicit bit's weight in a `p`-bit mantissa (R9). -/
def WidthPolicy.hidden (w : WidthPolicy) : Nat := 1 <<< w.manBits

/-- `MAN_MASK = (1 << MB) - 1` (R9). -/
def WidthPolicy.manMask (w : WidthPolicy) : Nat := (1 <<< w.manBits) - 1

/-- `SIGN_MASK = 1 << (N-1)` (R9). -/
def WidthPolicy.signMask (w : WidthPolicy) : BitVec w.totalBits :=
  BitVec.ofNat w.totalBits (1 <<< (w.totalBits - 1))

/-- `G`, the guard bits kept below the mantissa in the adder and the divider (R10). -/
def guardBits : Nat := 3

/-- The suffix of a request line: `.s` names the Binary32 instance, `.d` the Binary64 instance
(spec/30_encoding.md R74). -/
def WidthPolicy.suffix : WidthPolicy → String
  | .binary32 => ".s"
  | .binary64 => ".d"

end Sys2Proof
end

