-- ==== Sys2Proof/Word.lean ====
section
/-!
DEFINITION. The fixed-width words of the ports whose width no policy changes (spec/30_encoding.md R66).
Words whose width depends on the policy are written `BitVec w.totalBits` and so on (Config.lean).
-/

namespace Sys2Proof

/-- The operation select `op[3:0]` (R66, R69). -/
abbrev OpSelect := BitVec 4

/-- A sign: 0 stands for +1, 1 for -1 (R63). -/
abbrev Sign := BitVec 1

/-- The shift amount port `r_n`, `SHW = 8` bits (R10, R66). -/
abbrev ShiftAmount := BitVec 8

end Sys2Proof
end

