-- ==== Sys2Proof/Syntax.lean ====
section
/-!
DEFINITION. The request lines (spec/30_encoding.md R69, R74): one constructor per row of
spec/opcode_table.json, carrying the instance the line is for (the `.w` of R74) and the value of every
input port its operand format reads (R68).  Result names are the requester's and are no part of the encoding.
-/

namespace Sys2Proof

/-- One request line. `w` is the instance it is for; the other arguments are whole port values (R72). -/
inductive Instr where
  /-- op 0, format VV (R160). -/
  | add (w : WidthPolicy) (a b : BitVec w.totalBits)
  /-- op 1, format VV (R161). -/
  | sub (w : WidthPolicy) (a b : BitVec w.totalBits)
  /-- op 2, format VV (R190). -/
  | mul (w : WidthPolicy) (a b : BitVec w.totalBits)
  /-- op 3, format VV (R210). -/
  | div (w : WidthPolicy) (a b : BitVec w.totalBits)
  /-- op 4, format VV (R242). -/
  | xorBits (w : WidthPolicy) (a b : BitVec w.totalBits)
  /-- op 5, format VV (R243). -/
  | andBits (w : WidthPolicy) (a b : BitVec w.totalBits)
  /-- op 6, format V1 (R240). -/
  | fromBits (w : WidthPolicy) (a : BitVec w.totalBits)
  /-- op 7, format V1 (R241). -/
  | toBits (w : WidthPolicy) (a : BitVec w.totalBits)
  /-- op 8, format U (R90). -/
  | decompose (w : WidthPolicy) (a : BitVec w.totalBits)
  /-- op 9, format P: `c_sign`, `c_exp`, `c_man` (R91). -/
  | compose (w : WidthPolicy) (sign : Sign) (exp man : BitVec w.totalBits)
  /-- op 10, format C (R110). -/
  | classify (w : WidthPolicy) (a : BitVec w.totalBits)
  /-- op 11, format R: `r_man`, `r_n` (R120). -/
  | roundShift (w : WidthPolicy) (man : BitVec w.extBits) (n : ShiftAmount)
  /-- op 12, format V1 (R162). -/
  | flipSign (w : WidthPolicy) (a : BitVec w.totalBits)
  /-- op 13, reserved (R70). -/
  | reserved13 (w : WidthPolicy)
  /-- op 14, reserved (R70). -/
  | reserved14 (w : WidthPolicy)
  /-- op 15, reserved (R70). -/
  | reserved15 (w : WidthPolicy)
deriving DecidableEq, Repr

/-- The pseudo-operation NEG is FLIPSIGN (R75); it is no constructor of its own. -/
def Instr.neg (w : WidthPolicy) (a : BitVec w.totalBits) : Instr := .flipSign w a

/-- The instance a line is for (R74). -/
def Instr.policy : Instr → WidthPolicy
  | .add w _ _ => w
  | .sub w _ _ => w
  | .mul w _ _ => w
  | .div w _ _ => w
  | .xorBits w _ _ => w
  | .andBits w _ _ => w
  | .fromBits w _ => w
  | .toBits w _ => w
  | .decompose w _ => w
  | .compose w _ _ _ => w
  | .classify w _ => w
  | .roundShift w _ _ => w
  | .flipSign w _ => w
  | .reserved13 w => w
  | .reserved14 w => w
  | .reserved15 w => w

/-- The mnemonic of a line, as R74 writes it, with the instance's suffix; the reserved values have none
in R69 and take the opcode table's name. -/
def Instr.mnemonic (i : Instr) : String :=
  (match i with
    | .add _ _ _ => "ADD"
    | .sub _ _ _ => "SUB"
    | .mul _ _ _ => "MUL"
    | .div _ _ _ => "DIV"
    | .xorBits _ _ _ => "XOR"
    | .andBits _ _ _ => "AND"
    | .fromBits _ _ => "FROMBITS"
    | .toBits _ _ => "TOBITS"
    | .decompose _ _ => "DECOMPOSE"
    | .compose _ _ _ _ => "COMPOSE"
    | .classify _ _ => "CLASSIFY"
    | .roundShift _ _ _ => "ROUNDSHIFT"
    | .flipSign _ _ => "FLIPSIGN"
    | .reserved13 _ => "RESERVED_13"
    | .reserved14 _ => "RESERVED_14"
    | .reserved15 _ => "RESERVED_15") ++ i.policy.suffix

end Sys2Proof
end

