-- ==== Sys2Proof/Decode.lean ====
section
/-!
DEFINITION. The encoding of a request line and its decoding (spec/30_encoding.md R66 to R73): "The encoding of
a line is the value of `op` plus the values of the input ports its format reads" (R74).  A request is
one value for every input port; `decode` is total on requests (R70), `encode` is its inverse, and raw
words that are no 4-bit select are rejected by name.
-/

namespace Sys2Proof

/-- The input ports of one instance (R66). -/
structure Request (w : WidthPolicy) where
  /-- operation select -/
  op : OpSelect
  /-- left Value operand, or the single Value operand -/
  a : BitVec w.totalBits
  /-- right Value operand -/
  b : BitVec w.totalBits
  /-- COMPOSE: sign -/
  cSign : Sign
  /-- COMPOSE: `biased_exponent`, wider than the field -/
  cExp : BitVec w.totalBits
  /-- COMPOSE: `stored_mantissa`, wider than the field -/
  cMan : BitVec w.totalBits
  /-- ROUNDSHIFT: `mantissa` -/
  rMan : BitVec w.extBits
  /-- ROUNDSHIFT: `shift` -/
  rN : ShiftAmount
deriving DecidableEq, Repr

/-- Every input port at 0. -/
def Request.zeros (w : WidthPolicy) : Request w :=
  { op := 0, a := 0, b := 0, cSign := 0, cExp := 0, cMan := 0, rMan := 0, rN := 0 }

/-- The operand formats (R68); `none` is that of the reserved selects, which examine no operand port (R261). -/
inductive Format where
  | VV
  | V1
  | U
  | C
  | P
  | R
  | none
deriving DecidableEq, Repr

/-- The operand format of each `op` value (R68, R69, R70), by the pattern `op[3] op[2] op[1] op[0]`. -/
def formatOf (op : OpSelect) : Format :=
  match op[3], op[2], op[1], op[0] with
  | false, false, false, false => .VV
  | false, false, false, true => .VV
  | false, false, true, false => .VV
  | false, false, true, true => .VV
  | false, true, false, false => .VV
  | false, true, false, true => .VV
  | false, true, true, false => .V1
  | false, true, true, true => .V1
  | true, false, false, false => .U
  | true, false, false, true => .P
  | true, false, true, false => .C
  | true, false, true, true => .R
  | true, true, false, false => .V1
  | true, true, false, true => .none
  | true, true, true, false => .none
  | true, true, true, true => .none

/-- Two requests agree on every input port the format reads (R68, column "inputs read"). -/
def Request.agreeOn {w : WidthPolicy} (f : Format) (r r' : Request w) : Prop :=
  match f with
  | .VV => r.a = r'.a ∧ r.b = r'.b
  | .V1 => r.a = r'.a
  | .U => r.a = r'.a
  | .C => r.a = r'.a
  | .P => r.cSign = r'.cSign ∧ r.cExp = r'.cExp ∧ r.cMan = r'.cMan
  | .R => r.rMan = r'.rMan ∧ r.rN = r'.rN
  | .none => True

/-- The request line an instance of policy `w` reads from its input ports: the `op[3:0]` map of R69
and the reserved selects of R70, each with the ports its format reads (R68). Total. -/
def decode (w : WidthPolicy) (r : Request w) : Instr :=
  match r.op[3], r.op[2], r.op[1], r.op[0] with
  | false, false, false, false => .add w r.a r.b
  | false, false, false, true => .sub w r.a r.b
  | false, false, true, false => .mul w r.a r.b
  | false, false, true, true => .div w r.a r.b
  | false, true, false, false => .xorBits w r.a r.b
  | false, true, false, true => .andBits w r.a r.b
  | false, true, true, false => .fromBits w r.a
  | false, true, true, true => .toBits w r.a
  | true, false, false, false => .decompose w r.a
  | true, false, false, true => .compose w r.cSign r.cExp r.cMan
  | true, false, true, false => .classify w r.a
  | true, false, true, true => .roundShift w r.rMan r.rN
  | true, true, false, false => .flipSign w r.a
  | true, true, false, true => .reserved13 w
  | true, true, true, false => .reserved14 w
  | true, true, true, true => .reserved15 w

/-- The request that encodes a line: its `op` value (R69) and the ports its format reads (R68); the ports
it does not read, which are ignored (R71), are driven with 0. -/
def encode (i : Instr) : Request i.policy :=
  match i with
  | .add w a b => { Request.zeros w with op := 0, a := a, b := b }
  | .sub w a b => { Request.zeros w with op := 1, a := a, b := b }
  | .mul w a b => { Request.zeros w with op := 2, a := a, b := b }
  | .div w a b => { Request.zeros w with op := 3, a := a, b := b }
  | .xorBits w a b => { Request.zeros w with op := 4, a := a, b := b }
  | .andBits w a b => { Request.zeros w with op := 5, a := a, b := b }
  | .fromBits w a => { Request.zeros w with op := 6, a := a }
  | .toBits w a => { Request.zeros w with op := 7, a := a }
  | .decompose w a => { Request.zeros w with op := 8, a := a }
  | .compose w s e m => { Request.zeros w with op := 9, cSign := s, cExp := e, cMan := m }
  | .classify w a => { Request.zeros w with op := 10, a := a }
  | .roundShift w m n => { Request.zeros w with op := 11, rMan := m, rN := n }
  | .flipSign w a => { Request.zeros w with op := 12, a := a }
  | .reserved13 w => { Request.zeros w with op := 13 }
  | .reserved14 w => { Request.zeros w with op := 14 }
  | .reserved15 w => { Request.zeros w with op := 15 }

/-- Why a raw word is not an operation select (R73: the select has one length, 4 bits). -/
inductive WordRefusal where
  /-- fewer than the select's 4 bits were given -/
  | selectTooShort
  /-- a bit above `op[3]` is set -/
  | selectTooWide
deriving DecidableEq, Repr

/-- The operation select in the low 4 bits of an `nbits`-bit word. DESIGN CHOICE (log 7): bits 3..0 are
`op[3:0]`, every bit above them must be 0. -/
def selectOfWord (nbits word : Nat) : Except WordRefusal OpSelect :=
  if nbits < 4 then .error .selectTooShort
  else if 2 ^ 4 ≤ word then .error .selectTooWide
  else .ok (BitVec.ofNat 4 word)

/-- The request a word stands for when no operand bits are given: its select, every operand port 0. -/
def requestOfWord (w : WidthPolicy) (op : OpSelect) : Request w :=
  { Request.zeros w with op := op }

/-- The line the Binary32 instance decodes from an instruction whose bits are `word` (log 7). -/
def decodeTableWord (nbits word : Nat) : Option Instr :=
  match selectOfWord nbits word with
  | .ok op => some (decode .binary32 (requestOfWord .binary32 op))
  | .error _ => none

end Sys2Proof
end

