-- ==== Sys2Proof/Machine/State.lean ====
section
/-!
DEFINITION. What one transaction puts on the ports (spec/30_encoding.md R65 to R68, R79), and the machine's
state: the ports of the two instances.  The CORE itself has no architectural state (spec/10_state.md R20 to
R26); the host's form of a step carries its request and its response in the state (log 1).
-/

namespace Sys2Proof.Machine

/-- The Kinds of a value (R65, spec/41_classifier.md R110). -/
inductive Kind where
  | zero
  | subnormal
  | normal
  | infinity
  | nan
deriving DecidableEq, Repr

/-- The fault codes that are produced (spec/60_exceptions.md R260, R262). -/
inductive FaultCode where
  /-- ROUNDSHIFT with `r_n > MB + 1` (R263) -/
  | rsShiftRange
  /-- `op` is 13, 14 or 15 (R261) -/
  | illegalOp
deriving DecidableEq, Repr

/-- A Decomposed: the three fields of a RawBits (spec/40_bit_unpacker.md R90, spec/10_state.md R28). -/
structure Decomposed (w : WidthPolicy) where
  sign : Sign
  biasedExponent : BitVec w.expBits
  storedMantissa : BitVec w.manBits
deriving DecidableEq, Repr

/-- A response: the output ports the operation's format drives (R68), or a fault.  One shape per format, so
that an output the format does not name, and a data output of a faulting response, cannot be read
(R67, R71, spec/70_reset_and_hazards.md R300). -/
inductive Response (w : WidthPolicy) where
  /-- formats VV, V1 and P: `y` -/
  | value (y : BitVec w.totalBits)
  /-- format U: `u_sign`, `u_exp`, `u_man` -/
  | unpacked (d : Decomposed w)
  /-- format C: `kind` and `u_sign`, `u_exp`, `u_man` -/
  | classified (kind : Kind) (d : Decomposed w)
  /-- format R: `r_shifted`, `r_exact` -/
  | shifted (shifted : BitVec w.extBits) (exact : Bool)
  /-- `fault = 1` with the code; no other output is meaningful (R260) -/
  | fault (code : FaultCode)
deriving DecidableEq, Repr

/-- The machine: two instances side by side (spec/60_exceptions.md R274, spec/70_reset_and_hazards.md R305), each
with its input ports and the response on its output ports (R66), and two fields of the model's own.  The outputs follow
the inputs at all times (spec/70_reset_and_hazards.md R291): `State.present`, the one way the inputs change, computes them
anew, and `Settled` (Safety.lean) says that they are up to date. -/
structure State where
  /-- The model's own: the instance whose request the next step answers (log 2). -/
  sel : WidthPolicy
  /-- input ports of the Binary32 instance -/
  in32 : Request .binary32
  /-- input ports of the Binary64 instance -/
  in64 : Request .binary64
  /-- output ports of the Binary32 instance -/
  out32 : Response .binary32
  /-- output ports of the Binary64 instance -/
  out64 : Response .binary64
  /-- The model's own: the mark "a fault was raised" by a request that a step has answered, with the first fault's
  code; never cleared (spec/10_state.md R30, log 5). -/
  faultMark : Option FaultCode
deriving DecidableEq, Repr

/-- Why a step stops with a fault. -/
inductive Fault where
  /-- Raised by `step` alone, in a state whose fault mark is set: a run is over at its first fault, which is
  reported here (spec/10_state.md R30, spec/60_exceptions.md R267).  SAFE: the hardware would answer the next request. -/
  | runEnded (code : FaultCode)
deriving DecidableEq, Repr

/-- Why a step refuses. -/
inductive Refusal where
  /-- Raised by an arm of `exec` whose instruction has no meaning yet; no arm of this model is such.  SAFE. -/
  | notModelled (mnemonic : String)
deriving DecidableEq, Repr

/-- The machine before any request.  The spec's table of reset values is empty (spec/70_reset_and_hazards.md R290).
DESIGN CHOICE (log 2, 3, 5): the Binary32 instance is selected, every input port is 0, no fault is marked.
DEDUCED (log 4): the outputs are the combinational answer to those inputs, +0 (R291; R160 line T6). -/
def State.reset : State :=
  { sel := .binary32
    in32 := Request.zeros .binary32
    in64 := Request.zeros .binary64
    out32 := .value 0
    out64 := .value 0
    faultMark := none }

end Sys2Proof.Machine
end

