-- ==== Sys2Proof/Machine/Ops.lean ====
section
/-!
DEFINITION. The named operations over the ports, raising a fault as one shared operation
(spec/60_exceptions.md R260), and the integer primitives of spec/00_scope.md R13, R14 and
spec/43_normalize_round_pack.md R141.
-/

namespace Sys2Proof.Machine

/-- The request on the input ports of the instance of policy `w` (R66). -/
def State.inputs (s : State) (w : WidthPolicy) : Request w :=
  match w with
  | .binary32 => s.in32
  | .binary64 => s.in64

/-- The response on the output ports of the instance of policy `w` (R66). -/
def State.outputs (s : State) (w : WidthPolicy) : Response w :=
  match w with
  | .binary32 => s.out32
  | .binary64 => s.out64

/-- The instance of policy `w` drives a response on its output ports; the other instance's ports are
untouched (R274). -/
def State.drive (s : State) (w : WidthPolicy) (r : Response w) : State :=
  match w with
  | .binary32 => { s with out32 := r }
  | .binary64 => { s with out64 := r }

/-- The requester's half of presenting a request: the input ports of the instance of policy `w` take the
request, and that instance is selected for the next step (R67).  The outputs follow in `State.present`. -/
def State.driveInputs (s : State) (w : WidthPolicy) (r : Request w) : State :=
  match w with
  | .binary32 => { s with sel := .binary32, in32 := r }
  | .binary64 => { s with sel := .binary64, in64 := r }

/-- `raise Fault(code)` (R260): the response of this one request has `fault = 1` and the code; nothing is
saved, no control goes anywhere.  The model's mark keeps the first fault and is never cleared
(spec/10_state.md R30). -/
def State.raiseFault (s : State) (w : WidthPolicy) (code : FaultCode) : State :=
  { s.drive w (.fault code) with faultMark := some (s.faultMark.getD code) }

/-- An operation either returns or raises, never both (R15): the next state of a transaction whose
pseudocode ended in `r`. -/
def respond (w : WidthPolicy) (r : Except FaultCode (Response w)) (s : State) :
    Host.Outcome State Fault Refusal :=
  match r with
  | .ok v => .next (s.drive w v)
  | .error code => .next (s.raiseFault w code)

/-- What the output ports show for a pseudocode's outcome: the result it returns, or the fault it raises
(R15, spec/30_encoding.md R67, R79). -/
def shownBy {w : WidthPolicy} (r : Except FaultCode (Response w)) : Response w :=
  match r with
  | .ok v => v
  | .error code => .fault code

/-- A result on `y` (formats VV, V1, P; R68). -/
def onY {w : WidthPolicy} (r : Except FaultCode (BitVec w.totalBits)) : Except FaultCode (Response w) :=
  r.map Response.value

/-- `bitlen(x)`: the number of bits of a natural number, 0 for 0 (R14). -/
def bitLength (x : Nat) : Nat := if x = 0 then 0 else Nat.log2 x + 1

/-- `jam_shift`: a right shift that keeps, in bit 0 of the result, the fact that something nonzero was
shifted out (R141). -/
def jamShift (X k : Nat) : Nat :=
  if k = 0 then X
  else (X >>> k) ||| (if X % 2 ^ k ≠ 0 then 1 else 0)

end Sys2Proof.Machine
end

