-- ==== Sys2Proof/Machine/Operands.lean ====
section
/-!
DEFINITION. The layout of a value and the unpacking of operands: the fp_bit_unpacker's functions and
the two helpers the engines build on it (spec/30_encoding.md R60 to R64, spec/40_bit_unpacker.md R90 to R98).
-/

namespace Sys2Proof.Machine

/-- `sign = raw[N-1]` (R60). -/
def signField (w : WidthPolicy) (raw : BitVec w.totalBits) : Sign :=
  raw.extractLsb' (w.totalBits - 1) 1

/-- `biased_exponent = raw[N-2:MB]`, as stored (R60, R98). -/
def expField (w : WidthPolicy) (raw : BitVec w.totalBits) : BitVec w.expBits :=
  raw.extractLsb' w.manBits w.expBits

/-- `stored_mantissa = raw[MB-1:0]` (R60). -/
def manField (w : WidthPolicy) (raw : BitVec w.totalBits) : BitVec w.manBits :=
  raw.extractLsb' 0 w.manBits

/-- `decompose` (R90). -/
def decomposeRaw (w : WidthPolicy) (raw : BitVec w.totalBits) : Decomposed w :=
  { sign := signField w raw
    biasedExponent := expField w raw
    storedMantissa := manField w raw }

/-- `N = 1 + EB + MB` in both instances (R8). -/
theorem totalBits_eq_fields (w : WidthPolicy) : 1 + w.expBits + w.manBits = w.totalBits := by
  cases w <;> rfl

/-- `compose`: the three fields packed, an over-wide exponent or mantissa silently truncated (R91). -/
def composeRaw (w : WidthPolicy) (sign : Sign) (be sm : Nat) : BitVec w.totalBits :=
  ((sign ++ BitVec.ofNat w.expBits be) ++ BitVec.ofNat w.manBits sm).cast (totalBits_eq_fields w)

/-- `ZERO(s)` (R64). -/
def zeroBits (w : WidthPolicy) (s : Sign) : BitVec w.totalBits := composeRaw w s 0 0

/-- `INF(s)` (R64). -/
def infBits (w : WidthPolicy) (s : Sign) : BitVec w.totalBits := composeRaw w s w.maxBiasedExp 0

/-- `QNAN`, the canonical quiet NaN (R10, R64). -/
def qnanBits (w : WidthPolicy) : BitVec w.totalBits :=
  composeRaw w 0 w.maxBiasedExp (1 <<< (w.manBits - 1))

/-- `flip_sign`: a bitwise XOR against the sign-bit mask (R162). -/
def flipSignBits (w : WidthPolicy) (raw : BitVec w.totalBits) : BitVec w.totalBits :=
  raw ^^^ w.signMask

/-- An unpacked finite operand: its value is `(-1)^sign * man * 2^(exp - MB)` (R93, spec/10_state.md R28). -/
structure Unpacked where
  sign : Sign
  man : Nat
  exp : Int
deriving DecidableEq, Repr

/-- `unpack_finite`: the mantissa with its implicit bit, which is keyed on the exponent field being nonzero,
the unbiased exponent and the sign (R93, R303). -/
def unpackFinite (w : WidthPolicy) (raw : BitVec w.totalBits) : Unpacked :=
  let be := (expField w raw).toNat
  let f := (manField w raw).toNat
  if be = 0 then
    { sign := signField w raw, man := f, exp := w.minExp }
  else
    { sign := signField w raw, man := w.hidden ||| f, exp := (be : Int) - (w.bias : Int) }

/-- `prenormalize`: the leading bit of a nonzero `p`-bit mantissa brought to position `MB`, the value
unchanged (R94). -/
def prenormalize (w : WidthPolicy) (u : Unpacked) : Unpacked :=
  let z := w.sigBits - bitLength u.man
  { u with man := u.man <<< z, exp := u.exp - (z : Int) }

end Sys2Proof.Machine
end

