-- ==== Sys2Proof/Machine/Flags.lean ====
section
/-!
DEFINITION. The CORE has no architectural flag (spec/10_state.md R23).  Here stand the one-bit facts its
operations compute: the Kind of a value (spec/41_classifier.md R110), guard, sticky and `exact` of a rounding
shift (spec/42_rounding_engine.md R120, R121, R124), and the encodings of `kind`, `fault` and `fault_code` on the
output ports (spec/30_encoding.md R65, R79).
-/

namespace Sys2Proof.Machine

/-- `classify` on the raw exponent and mantissa fields (R110, R304). -/
def classifyFields (w : WidthPolicy) (be : BitVec w.expBits) (sm : BitVec w.manBits) : Kind :=
  if be.toNat = 0 ∧ sm.toNat = 0 then .zero
  else if be.toNat = 0 ∧ sm.toNat ≠ 0 then .subnormal
  else if be.toNat = w.maxBiasedExp ∧ sm.toNat = 0 then .infinity
  else if be.toNat = w.maxBiasedExp ∧ sm.toNat ≠ 0 then .nan
  else .normal

/-- The Kind of a bit pattern, `classify(decompose(r))` (R68, R110). -/
def kindOf (w : WidthPolicy) (raw : BitVec w.totalBits) : Kind :=
  classifyFields w (expField w raw) (manField w raw)

/-- Finite: Zero, Subnormal or Normal (spec/00_scope.md R16). -/
def Kind.isFinite : Kind → Bool
  | .zero => true
  | .subnormal => true
  | .normal => true
  | .infinity => false
  | .nan => false

/-- The guard bit: the most significant of the `n` bits shifted out (R121); asked for `n >= 1` only. -/
def guardBit (X n : Nat) : Bool := X.testBit (n - 1)

/-- The sticky aggregate: the OR of the other shifted-out bits; none for `n = 1` (R121). -/
def stickyBit (X n : Nat) : Bool := if n = 1 then false else decide (X % 2 ^ (n - 1) ≠ 0)

/-- `exact`: every shifted-out bit is zero (R124). -/
def exactShift (X n : Nat) : Bool := !guardBit X n && !stickyBit X n

/-- `kind[2:0]` (R65); 5, 6 and 7 are never produced. -/
def Kind.code : Kind → BitVec 3
  | .zero => 0
  | .subnormal => 1
  | .normal => 2
  | .infinity => 3
  | .nan => 4

/-- `fault_code[1:0]` of a raised fault (R79, R260). -/
def FaultCode.code : FaultCode → BitVec 2
  | .rsShiftRange => 1
  | .illegalOp => 2

/-- The output `fault`: 1 exactly when the operation raised (R79). -/
def Response.faultPort {w : WidthPolicy} : Response w → BitVec 1
  | .value _ => 0
  | .unpacked _ => 0
  | .classified _ _ => 0
  | .shifted _ _ => 0
  | .fault _ => 1

/-- The output `fault_code`: 0 when no fault was raised (R67, R79); 3 is never produced. -/
def Response.faultCodePort {w : WidthPolicy} : Response w → BitVec 2
  | .value _ => 0
  | .unpacked _ => 0
  | .classified _ _ => 0
  | .shifted _ _ => 0
  | .fault code => code.code

/-- The output `y`, where the format drives it (R68). -/
def Response.yPort {w : WidthPolicy} : Response w → Option (BitVec w.totalBits)
  | .value y => some y
  | .unpacked _ => none
  | .classified _ _ => none
  | .shifted _ _ => none
  | .fault _ => none

/-- The outputs `u_sign`, `u_exp`, `u_man`, where the format drives them (R68). -/
def Response.unpackedPorts {w : WidthPolicy} : Response w → Option (Decomposed w)
  | .value _ => none
  | .unpacked d => some d
  | .classified _ d => some d
  | .shifted _ _ => none
  | .fault _ => none

/-- The output `kind[2:0]`, where the format drives it (R65, R68). -/
def Response.kindPort {w : WidthPolicy} : Response w → Option (BitVec 3)
  | .value _ => none
  | .unpacked _ => none
  | .classified k _ => some k.code
  | .shifted _ _ => none
  | .fault _ => none

/-- The outputs `r_shifted` and `r_exact`, where the format drives them, `r_exact` as 1 for true (R66, R68). -/
def Response.shiftedPorts {w : WidthPolicy} : Response w → Option (BitVec w.extBits × BitVec 1)
  | .value _ => none
  | .unpacked _ => none
  | .classified _ _ => none
  | .shifted r exact => some (r, BitVec.ofBool exact)
  | .fault _ => none

end Sys2Proof.Machine
end

