-- ==== Sys2Proof/Machine/RoundingEngine.lean ====
section
/-!
DEFINITION. fp_rounding_engine: `round_shift` and its operation ROUNDSHIFT (spec/42_rounding_engine.md R120 to R128).
-/

namespace Sys2Proof.Machine

/-- The rounded shift for `n >= 1`, by the guard, the sticky and the low bit of the truncated value
(the decision table of R122). -/
def roundedShift (X n : Nat) : Nat :=
  let truncated := X >>> n
  if guardBit X n = false then truncated
  else if stickyBit X n = true then truncated + 1
  else if truncated.testBit 0 = true then truncated + 1
  else truncated

/-- `round_shift(mantissa, n)`: the only place where a value is rounded; it raises `RS_SHIFT_RANGE` when
`n > MB + 1` (R120, R123, R125). -/
def roundShift (w : WidthPolicy) (X n : Nat) : Except FaultCode (Nat × Bool) :=
  if n > w.manBits + 1 then .error .rsShiftRange
  else if n = 0 then .ok (X, true)
  else .ok (roundedShift X n, exactShift X n)

/-- `round_shift` on the ports, as a response or its fault (R120, R125). -/
def answerRoundShift (w : WidthPolicy) (man : BitVec w.extBits) (n : ShiftAmount) :
    Except FaultCode (Response w) :=
  (roundShift w man.toNat n.toNat).map (fun r => .shifted (BitVec.ofNat w.extBits r.1) r.2)

/-- ROUNDSHIFT on the ports `r_man` and `r_n`; `r_shifted` never wraps (R120, R128). -/
def execRoundShift (w : WidthPolicy) (man : BitVec w.extBits) (n : ShiftAmount) (s : State) :
    Host.Outcome State Fault Refusal :=
  respond w (answerRoundShift w man n) s

end Sys2Proof.Machine
end

