-- ==== Sys2Proof/Machine/Normalizer.lean ====
section
/-!
DEFINITION. The normalize, round and pack stage shared by the three engines (spec/43_normalize_round_pack.md R140 to
R151).  Exponents are unbounded integers and mantissas natural numbers (spec/00_scope.md R13).
-/

namespace Sys2Proof.Machine

/-- The quantities `nrp` carries from line to line: the exponent `e`, the ExtendedMantissa `X` and the rounding
shift `rs`. -/
structure Scaled where
  exp : Int
  man : Nat
  shift : Nat
deriving DecidableEq, Repr

/-- Lines N1 and N2: carry out, or leading zeros down to the minimum exponent (R142, R143). -/
def nrpNormalize (w : WidthPolicy) (e : Int) (X g : Nat) : Scaled :=
  let L := bitLength X
  if L = w.sigBits + g + 1 then { exp := e + 1, man := X, shift := g + 1 }
  else if L = w.sigBits + g then { exp := e, man := X, shift := g }
  else
    let z := min (w.sigBits + g - L) (max (e - w.minExp) 0).toNat
    { exp := e - (z : Int), man := X <<< z, shift := g }

/-- Line N3: below the minimum exponent the deficit joins the one rounding shift (R144). -/
def nrpDenormalize (w : WidthPolicy) (v : Scaled) : Scaled :=
  if v.exp < w.minExp then
    { v with exp := w.minExp, shift := v.shift + (w.minExp - v.exp).toNat }
  else v

/-- Line N4: the excess over the rounding engine's range is removed by `jam_shift` (R145). -/
def nrpJam (w : WidthPolicy) (v : Scaled) : Scaled :=
  if v.shift > w.sigBits then
    { v with man := jamShift v.man (v.shift - w.sigBits), shift := w.sigBits }
  else v

/-- Line N7: re-bias and compose; overflow gives `INF(s)`, a clear implicit bit a Subnormal or a Zero (R148). -/
def nrpPack (w : WidthPolicy) (s : Sign) (e : Int) (R : Nat) : BitVec w.totalBits :=
  if R ≥ w.hidden then
    let be := e + (w.bias : Int)
    if be ≥ (w.maxBiasedExp : Int) then infBits w s
    else composeRaw w s be.toNat (R &&& w.manMask)
  else composeRaw w s 0 R

/-- Line N6: the carry out of the rounding increment, then line N7 (R147). -/
def nrpCarryPack (w : WidthPolicy) (s : Sign) (e : Int) (R : Nat) : BitVec w.totalBits :=
  if R = 2 ^ w.sigBits then nrpPack w s (e + 1) w.hidden else nrpPack w s e R

/-- `nrp(s, e, X, g)`: `(-1)^s * X * 2^(e - MB - g)` rounded once into the format (R140); line N5 is the one
call of the rounding engine, whose `exact` is discarded (R146). -/
def nrp (w : WidthPolicy) (s : Sign) (e : Int) (X g : Nat) : Except FaultCode (BitVec w.totalBits) :=
  let v := nrpJam w (nrpDenormalize w (nrpNormalize w e X g))
  (roundShift w v.man v.shift).map (fun r => nrpCarryPack w s v.exp r.1)

end Sys2Proof.Machine
end

