-- ==== Sys2Proof/Machine/AdderSub.lean ====
section
/-!
DEFINITION. fp_adder_sub: ADD, SUB and FLIPSIGN (spec/44_adder_sub.md R160 to R175).
-/

namespace Sys2Proof.Machine

/-- Line A2: combine two aligned mantissas; the result is the sign and `S` (R169). -/
def combineAligned (s1 s2 : Sign) (A B : Nat) : Sign × Nat :=
  if s1 = s2 then (s1, A + B)
  else if A ≥ B then (s1, A - B)
  else (s2, B - A)

/-- Lines A1 to A3 on operands ordered so that `u1.exp >= u2.exp` (R168 to R171). -/
def addOrdered (w : WidthPolicy) (u1 u2 : Unpacked) : Except FaultCode (BitVec w.totalBits) :=
  let d := (u1.exp - u2.exp).toNat
  let A := u1.man <<< guardBits
  let B := jamShift (u2.man <<< guardBits) (min d (w.sigBits + guardBits))
  let c := combineAligned u1.sign u2.sign A B
  if c.2 = 0 then .ok (zeroBits w 0)
  else nrp w c.1 u1.exp c.2 guardBits

/-- The computed path, lines A0 to A3: unpack and order by exponent (R167). -/
def addComputed (w : WidthPolicy) (a b : BitVec w.totalBits) : Except FaultCode (BitVec w.totalBits) :=
  let ua := unpackFinite w a
  let ub := unpackFinite w b
  if ua.exp < ub.exp then addOrdered w ub ua else addOrdered w ua ub

/-- `add(a, b)`: the special-value rows T1 to T8 in order, then the computed path (R160, R163 to R166). -/
def addBits (w : WidthPolicy) (a b : BitVec w.totalBits) : Except FaultCode (BitVec w.totalBits) :=
  let ka := kindOf w a
  let kb := kindOf w b
  let sa := signField w a
  let sb := signField w b
  if ka = .nan then .ok a
  else if kb = .nan then .ok b
  else if ka = .infinity ∧ kb = .infinity then
    if sa = sb then .ok a else .ok (qnanBits w)
  else if ka = .infinity then .ok a
  else if kb = .infinity then .ok b
  else if ka = .zero ∧ kb = .zero then
    if sa = sb then .ok a else .ok (zeroBits w 0)
  else if ka = .zero then .ok b
  else if kb = .zero then .ok a
  else addComputed w a b

/-- `sub(a, b) = add(a, b XOR SIGN_MASK)` (R161). -/
def subBits (w : WidthPolicy) (a b : BitVec w.totalBits) : Except FaultCode (BitVec w.totalBits) :=
  addBits w a (flipSignBits w b)

/-- The block's own interface: the one-bit select `sub`, 0 for ADD and 1 for SUB (R77). -/
def adderSub (w : WidthPolicy) (select : BitVec 1) (a b : BitVec w.totalBits) :
    Except FaultCode (BitVec w.totalBits) :=
  if select = 1 then subBits w a b else addBits w a b

/-- The sum, as a response (R160). -/
def answerAdd (w : WidthPolicy) (a b : BitVec w.totalBits) :
    Except FaultCode (Response w) :=
  onY (adderSub w 0 a b)

/-- ADD (R160): `op[0] = 0` on the block's select. -/
def execAdd (w : WidthPolicy) (a b : BitVec w.totalBits) (s : State) :
    Host.Outcome State Fault Refusal :=
  respond w (answerAdd w a b) s

/-- The difference, as a response (R161). -/
def answerSub (w : WidthPolicy) (a b : BitVec w.totalBits) :
    Except FaultCode (Response w) :=
  onY (adderSub w 1 a b)

/-- SUB (R161): `op[0] = 1` on the block's select. -/
def execSub (w : WidthPolicy) (a b : BitVec w.totalBits) (s : State) :
    Host.Outcome State Fault Refusal :=
  respond w (answerSub w a b) s

/-- `flip_sign`, as a response (R162). -/
def answerFlipSign (w : WidthPolicy) (a : BitVec w.totalBits) :
    Except FaultCode (Response w) :=
  onY (.ok (flipSignBits w a))

/-- FLIPSIGN: no arithmetic, no classification (R162). -/
def execFlipSign (w : WidthPolicy) (a : BitVec w.totalBits) (s : State) :
    Host.Outcome State Fault Refusal :=
  respond w (answerFlipSign w a) s

end Sys2Proof.Machine
end

