-- ==== Sys2Proof/Machine/BitUnpacker.lean ====
section
/-!
DEFINITION. fp_bit_unpacker's operations DECOMPOSE and COMPOSE (spec/40_bit_unpacker.md R90, R91, R97).
-/

namespace Sys2Proof.Machine

/-- `decompose` on `a`, as a response (R90). -/
def answerDecompose (w : WidthPolicy) (a : BitVec w.totalBits) :
    Except FaultCode (Response w) :=
  .ok (.unpacked (decomposeRaw w a))

/-- DECOMPOSE (R90). -/
def execDecompose (w : WidthPolicy) (a : BitVec w.totalBits) (s : State) :
    Host.Outcome State Fault Refusal :=
  respond w (answerDecompose w a) s

/-- `compose` of the three ports, as a response (R91). -/
def answerCompose (w : WidthPolicy) (sign : Sign) (exp man : BitVec w.totalBits) :
    Except FaultCode (Response w) :=
  onY (.ok (composeRaw w sign exp.toNat man.toNat))

/-- COMPOSE; over-wide operands are truncated, not reported (R91). -/
def execCompose (w : WidthPolicy) (sign : Sign) (exp man : BitVec w.totalBits) (s : State) :
    Host.Outcome State Fault Refusal :=
  respond w (answerCompose w sign exp man) s

end Sys2Proof.Machine
end

