-- ==== Sys2Proof/Machine/Classifier.lean ====
section
/-!
DEFINITION. fp_classifier's operation CLASSIFY (spec/41_classifier.md R110).
-/

namespace Sys2Proof.Machine

/-- `classify` on `a`, as a response (R110). -/
def answerClassify (w : WidthPolicy) (a : BitVec w.totalBits) :
    Except FaultCode (Response w) :=
  .ok (.classified (kindOf w a) (decomposeRaw w a))

/-- CLASSIFY: the Kind with the Decomposed, sign untouched (R110). -/
def execClassify (w : WidthPolicy) (a : BitVec w.totalBits) (s : State) :
    Host.Outcome State Fault Refusal :=
  respond w (answerClassify w a) s

end Sys2Proof.Machine
end

