-- ==== Sys2Proof/Machine/Divider.lean ====
section
/-!
DEFINITION. fp_divider: DIV and its restoring long division (spec/46_divider.md R210 to R222).
-/

namespace Sys2Proof.Machine

/-- The divider's working values within one operation: quotient and partial remainder (R215). -/
structure QuotRem where
  quot : Nat
  rem : Nat
deriving DecidableEq, Repr

/-- The trial subtraction of iteration `i`: on success quotient bit `i` is set, else the remainder is
restored (R215). -/
def trialSubtract (m2 i : Nat) (v : QuotRem) : QuotRem :=
  if v.rem ≥ m2 then { quot := v.quot ||| (1 <<< i), rem := v.rem - m2 } else v

/-- Iterations `i, i-1, …, 0`, the remainder doubled after every one but the last (R215). -/
def longDivideFrom (m2 : Nat) : Nat → QuotRem → QuotRem
  | 0, v => trialSubtract m2 0 v
  | i + 1, v =>
    let t := trialSubtract m2 (i + 1) v
    longDivideFrom m2 i { t with rem := t.rem <<< 1 }

/-- `long_divide(m1, m2)`: `MB + 3` iterations, whatever the data (R215). -/
def longDivide (w : WidthPolicy) (m1 m2 : Nat) : QuotRem :=
  longDivideFrom m2 (w.manBits + 2) { quot := 0, rem := m1 }

/-- The computed path, lines V0 to V3: the quotient with the sticky bit appended, rounded once
(R214, R217 to R219). -/
def divComputed (w : WidthPolicy) (s : Sign) (a b : BitVec w.totalBits) :
    Except FaultCode (BitVec w.totalBits) :=
  let u1 := prenormalize w (unpackFinite w a)
  let u2 := prenormalize w (unpackFinite w b)
  let v := longDivide w u1.man u2.man
  let X := (v.quot <<< 1) ||| (if v.rem ≠ 0 then 1 else 0)
  nrp w s (u1.exp - u2.exp) X guardBits

/-- `div(a, b)`: the special-value rows T1 to T6 in order, then the computed path (R210 to R213). -/
def divBits (w : WidthPolicy) (a b : BitVec w.totalBits) : Except FaultCode (BitVec w.totalBits) :=
  let ka := kindOf w a
  let kb := kindOf w b
  let s := signField w a ^^^ signField w b
  if ka = .nan then .ok a
  else if kb = .nan then .ok b
  else if ka = .infinity then
    if kb = .infinity then .ok (qnanBits w) else .ok (infBits w s)
  else if kb = .infinity then .ok (zeroBits w s)
  else if kb = .zero then
    if ka = .zero then .ok (qnanBits w) else .ok (infBits w s)
  else if ka = .zero then .ok (zeroBits w s)
  else divComputed w s a b

/-- The quotient, as a response (R210). -/
def answerDiv (w : WidthPolicy) (a b : BitVec w.totalBits) :
    Except FaultCode (Response w) :=
  onY (divBits w a b)

/-- DIV (R210). -/
def execDiv (w : WidthPolicy) (a b : BitVec w.totalBits) (s : State) :
    Host.Outcome State Fault Refusal :=
  respond w (answerDiv w a b) s

end Sys2Proof.Machine
end

