-- ==== Sys2Proof/Machine/Multiplier.lean ====
section
/-!
DEFINITION. fp_multiplier: MUL (spec/45_multiplier.md R190 to R199).
-/

namespace Sys2Proof.Machine

/-- The computed path, lines M0 to M2: the exact product of the prenormalized mantissas, rounded once
(R195 to R197). -/
def mulComputed (w : WidthPolicy) (s : Sign) (a b : BitVec w.totalBits) :
    Except FaultCode (BitVec w.totalBits) :=
  let u1 := prenormalize w (unpackFinite w a)
  let u2 := prenormalize w (unpackFinite w b)
  nrp w s (u1.exp + u2.exp) (u1.man * u2.man) w.manBits

/-- `mul(a, b)`: the special-value rows T1 to T4 in order, then the computed path (R190 to R194). -/
def mulBits (w : WidthPolicy) (a b : BitVec w.totalBits) : Except FaultCode (BitVec w.totalBits) :=
  let ka := kindOf w a
  let kb := kindOf w b
  let s := signField w a ^^^ signField w b
  if ka = .nan then .ok a
  else if kb = .nan then .ok b
  else if ka = .infinity ∨ kb = .infinity then
    if ka = .zero ∨ kb = .zero then .ok (qnanBits w) else .ok (infBits w s)
  else if ka = .zero ∨ kb = .zero then .ok (zeroBits w s)
  else mulComputed w s a b

/-- The product, as a response (R190). -/
def answerMul (w : WidthPolicy) (a b : BitVec w.totalBits) :
    Except FaultCode (Response w) :=
  onY (mulBits w a b)

/-- MUL (R190). -/
def execMul (w : WidthPolicy) (a b : BitVec w.totalBits) (s : State) :
    Host.Outcome State Fault Refusal :=
  respond w (answerMul w a b) s

end Sys2Proof.Machine
end

