-- ==== Sys2Proof/Machine/Reserved.lean ====
section
/-!
DEFINITION. The reserved selects: `op` 13, 14 and 15 raise `Fault(ILLEGAL_OP)`; no operand port is
examined (spec/30_encoding.md R70, spec/60_exceptions.md R261).
-/

namespace Sys2Proof.Machine

/-- What `op = 13` raises (R261). -/
def answerReserved13 (w : WidthPolicy) :
    Except FaultCode (Response w) :=
  .error .illegalOp

/-- `op = 13` (R70, R261). -/
def execReserved13 (w : WidthPolicy) (s : State) :
    Host.Outcome State Fault Refusal :=
  respond w (answerReserved13 w) s

/-- What `op = 14` raises (R261). -/
def answerReserved14 (w : WidthPolicy) :
    Except FaultCode (Response w) :=
  .error .illegalOp

/-- `op = 14` (R70, R261). -/
def execReserved14 (w : WidthPolicy) (s : State) :
    Host.Outcome State Fault Refusal :=
  respond w (answerReserved14 w) s

/-- What `op = 15` raises (R261). -/
def answerReserved15 (w : WidthPolicy) :
    Except FaultCode (Response w) :=
  .error .illegalOp

/-- `op = 15` (R70, R261). -/
def execReserved15 (w : WidthPolicy) (s : State) :
    Host.Outcome State Fault Refusal :=
  respond w (answerReserved15 w) s

end Sys2Proof.Machine
end

