-- ==== Sys2Proof/Machine/ValueOps.lean ====
section
/-!
DEFINITION. The value and raw-bit operations FROMBITS, TOBITS, XOR, AND (spec/47_value_ops.md R240 to R246).
-/

namespace Sys2Proof.Machine

/-- `xor_bits`, as a response (R242). -/
def answerXorBits (w : WidthPolicy) (a b : BitVec w.totalBits) :
    Except FaultCode (Response w) :=
  onY (.ok (a ^^^ b))

/-- XOR: no classification, no arithmetic (R242). -/
def execXorBits (w : WidthPolicy) (a b : BitVec w.totalBits) (s : State) :
    Host.Outcome State Fault Refusal :=
  respond w (answerXorBits w a b) s

/-- `and_bits`, as a response (R243). -/
def answerAndBits (w : WidthPolicy) (a b : BitVec w.totalBits) :
    Except FaultCode (Response w) :=
  onY (.ok (a &&& b))

/-- AND (R243). -/
def execAndBits (w : WidthPolicy) (a b : BitVec w.totalBits) (s : State) :
    Host.Outcome State Fault Refusal :=
  respond w (answerAndBits w a b) s

/-- `from_bits`, as a response (R240). -/
def answerFromBits (w : WidthPolicy) (a : BitVec w.totalBits) :
    Except FaultCode (Response w) :=
  onY (.ok a)

/-- FROMBITS: the identity, no validation (R240). -/
def execFromBits (w : WidthPolicy) (a : BitVec w.totalBits) (s : State) :
    Host.Outcome State Fault Refusal :=
  respond w (answerFromBits w a) s

/-- `to_bits`, as a response (R241). -/
def answerToBits (w : WidthPolicy) (a : BitVec w.totalBits) :
    Except FaultCode (Response w) :=
  onY (.ok a)

/-- TOBITS: the raw bit pattern unchanged (R241). -/
def execToBits (w : WidthPolicy) (a : BitVec w.totalBits) (s : State) :
    Host.Outcome State Fault Refusal :=
  respond w (answerToBits w a) s

end Sys2Proof.Machine
end

