-- ==== Sys2Proof/Machine/Dispatch.lean ====
section
/-!
DEFINITION. One arm per row of spec/opcode_table.json.
-/

namespace Sys2Proof.Machine

def exec (i : Instr) (s : State) : Host.Outcome State Fault Refusal :=
  match i with
  | .add w a b => Sys2Proof.Machine.execAdd w a b s
  | .sub w a b => Sys2Proof.Machine.execSub w a b s
  | .mul w a b => Sys2Proof.Machine.execMul w a b s
  | .div w a b => Sys2Proof.Machine.execDiv w a b s
  | .xorBits w a b => Sys2Proof.Machine.execXorBits w a b s
  | .andBits w a b => Sys2Proof.Machine.execAndBits w a b s
  | .fromBits w a => Sys2Proof.Machine.execFromBits w a s
  | .toBits w a => Sys2Proof.Machine.execToBits w a s
  | .decompose w a => Sys2Proof.Machine.execDecompose w a s
  | .compose w sign exp man => Sys2Proof.Machine.execCompose w sign exp man s
  | .classify w a => Sys2Proof.Machine.execClassify w a s
  | .roundShift w man n => Sys2Proof.Machine.execRoundShift w man n s
  | .flipSign w a => Sys2Proof.Machine.execFlipSign w a s
  | .reserved13 w => Sys2Proof.Machine.execReserved13 w s
  | .reserved14 w => Sys2Proof.Machine.execReserved14 w s
  | .reserved15 w => Sys2Proof.Machine.execReserved15 w s

end Sys2Proof.Machine
end

