-- ==== Sys2Proof/Machine/Answer.lean ====
section
/-!
DEFINITION. The CORE as the function it is, from a line to a response (spec/10_state.md R20, spec/70_reset_and_hazards.md
R294), and the outputs that follow the inputs at all times (spec/70_reset_and_hazards.md R291).
-/

namespace Sys2Proof.Machine

/-- `response = f(policy, request)` (spec/10_state.md R20): what a line returns or raises, whatever the state. -/
def answer (i : Instr) : Except FaultCode (Response i.policy) :=
  match i with
  | .add w a b => answerAdd w a b
  | .sub w a b => answerSub w a b
  | .mul w a b => answerMul w a b
  | .div w a b => answerDiv w a b
  | .xorBits w a b => answerXorBits w a b
  | .andBits w a b => answerAndBits w a b
  | .fromBits w a => answerFromBits w a
  | .toBits w a => answerToBits w a
  | .decompose w a => answerDecompose w a
  | .compose w sign exp man => answerCompose w sign exp man
  | .classify w a => answerClassify w a
  | .roundShift w man n => answerRoundShift w man n
  | .flipSign w a => answerFlipSign w a
  | .reserved13 w => answerReserved13 w
  | .reserved14 w => answerReserved14 w
  | .reserved15 w => answerReserved15 w

/-- The output ports of the line's instance show what the line returns or raises. -/
def State.showAnswer (s : State) (i : Instr) : State := s.drive i.policy (shownBy (answer i))

/-- Both instances show the function of whatever is on their inputs (R291, R294). No fault is marked: the run's mark
is about requests that a step has answered (log 5). -/
def State.settle (s : State) : State :=
  (s.showAnswer (decode .binary32 s.in32)).showAnswer (decode .binary64 s.in64)

/-- The requester presents a request to the instance of policy `w`: the input ports take it, the outputs follow at once
(R67, R291), and the next step answers that instance. -/
def State.present (s : State) (w : WidthPolicy) (r : Request w) : State := (s.driveInputs w r).settle

end Sys2Proof.Machine
end

