-- ==== Sys2Proof/Machine/Fetch.lean ====
section
/-!
DEFINITION. How the machine comes by its next request line: the selected instance's input ports, decoded
(spec/30_encoding.md R67, R70).  The CORE fetches nothing from a memory (spec/10_state.md R22).
-/

namespace Sys2Proof.Machine

/-- The line on the input ports of the selected instance (R67, R68). -/
def State.pendingLine (s : State) : Instr := decode s.sel (s.inputs s.sel)

/-- The requester issues a line: it presents the line's encoding to the instance the line is for
(R67, R74). -/
def State.issue (s : State) (i : Instr) : State := s.present i.policy (encode i)

/-- The selected instance's ports hold the request a raw word stands for: the word's low 4 bits as `op`,
every operand port 0 (log 7). -/
def State.placeWord (s : State) (word : Nat) : State :=
  s.present s.sel (requestOfWord s.sel (BitVec.ofNat 4 word))

end Sys2Proof.Machine
end

