-- ==== Sys2Proof/Machine/Step.lean ====
section
/-!
DEFINITION. One step is one transaction of the selected instance (spec/30_encoding.md R67): its line is decoded
from its input ports and answered on its output ports.
-/

namespace Sys2Proof.Machine

/-- One transaction: the selected instance answers the request on its inputs, with the response that its outputs show
already where they are up to date (R67; spec/70_reset_and_hazards.md R291).  Where a fault has been raised the run is over and the step stops, reporting the first
fault (spec/10_state.md R30, spec/60_exceptions.md R267; log 5). -/
def step (s : State) : Host.Outcome State Fault Refusal :=
  match s.faultMark with
  | some code => .fault (.runEnded code)
  | none => exec s.pendingLine s

/-- `s` with the instruction whose bits are `w` where `step` takes its next one: on the input ports of the selected
instance.  `nbits` is the table's length, 8 for a 4-bit select; the bits above it, the operand ports, are 0. -/
def State.withFetchWord (s : State) (_nbits w : Nat) : State := s.placeWord w

end Sys2Proof.Machine
end

