-- ==== Sys2Proof/Machine/Value.lean ====
section
/-!
DEFINITION. What a bit pattern denotes (spec/41_classifier.md R112) and what it is to be the correctly rounded result:
the contract of the four operators (spec/00_scope.md R3, spec/43_normalize_round_pack.md R149) and of the
rounding engine (spec/42_rounding_engine.md R124, R127).  The machine uses none of this; the claims do.
-/

namespace Sys2Proof.Machine

/-- The magnitude of a finite pattern, by the value formulas of R112. -/
def magnitude (w : WidthPolicy) (x : BitVec w.totalBits) : ℚ :=
  let be := (expField w x).toNat
  let f := (manField w x).toNat
  if be = 0 then (f : ℚ) * 2 ^ (1 - (w.bias : Int) - (w.manBits : Int))
  else ((w.hidden ||| f : Nat) : ℚ) * 2 ^ ((be : Int) - (w.bias : Int) - (w.manBits : Int))

/-- The real number a finite pattern denotes (R112). -/
def valueOf (w : WidthPolicy) (x : BitVec w.totalBits) : ℚ :=
  if signField w x = 1 then -magnitude w x else magnitude w x

/-- The least magnitude that rounds, at unbounded exponent range, to `2^(EMAX+1)` or above: halfway between the
largest finite value and `2^(EMAX+1)`, whose mantissa is the even one (R149). -/
def overflowMagnitude (w : WidthPolicy) : ℚ :=
  ((2 ^ (w.sigBits + 1) - 1 : Nat) : ℚ) * 2 ^ (w.maxExp - (w.sigBits : Int))

/-- A stored mantissa with low bit 0. -/
def evenMantissa (w : WidthPolicy) (x : BitVec w.totalBits) : Prop := (manField w x).toNat % 2 = 0

/-- `y` is the pattern of sign `s` nearest to magnitude `q`, ties to the even mantissa, `INF(s)` on overflow
(R149). DEDUCED (log 12): "nearest" is over every finite pattern, and a tie is between two magnitudes. -/
def RoundsTo (w : WidthPolicy) (s : Sign) (q : ℚ) (y : BitVec w.totalBits) : Prop :=
  if overflowMagnitude w ≤ q then y = infBits w s
  else
    signField w y = s ∧ (kindOf w y).isFinite = true ∧
    ∀ z : BitVec w.totalBits, (kindOf w z).isFinite = true →
      |magnitude w y - q| ≤ |magnitude w z - q| ∧
      (|magnitude w y - q| = |magnitude w z - q| → magnitude w z ≠ magnitude w y → evenMantissa w y)

/-- The sign of an exact nonzero result. -/
def signOfRat (v : ℚ) : Sign := if v < 0 then 1 else 0

/-- ADD's contract: the table of R163 with R164 to R166 and R170, and the correctly rounded sum (R3, R149). -/
def AddMeets (w : WidthPolicy) (a b y : BitVec w.totalBits) : Prop :=
  match kindOf w a, kindOf w b with
  | .nan, _ => y = a
  | _, .nan => y = b
  | .infinity, .infinity => if signField w a = signField w b then y = a else y = qnanBits w
  | .infinity, _ => y = a
  | _, .infinity => y = b
  | .zero, .zero => if signField w a = signField w b then y = a else y = zeroBits w 0
  | _, _ =>
    if valueOf w a + valueOf w b = 0 then y = zeroBits w 0
    else RoundsTo w (signOfRat (valueOf w a + valueOf w b)) |valueOf w a + valueOf w b| y

/-- MUL's contract: the table of R191 and the correctly rounded product (R3, R149). -/
def MulMeets (w : WidthPolicy) (a b y : BitVec w.totalBits) : Prop :=
  let s := signField w a ^^^ signField w b
  match kindOf w a, kindOf w b with
  | .nan, _ => y = a
  | _, .nan => y = b
  | .infinity, .zero => y = qnanBits w
  | .zero, .infinity => y = qnanBits w
  | .infinity, _ => y = infBits w s
  | _, .infinity => y = infBits w s
  | .zero, _ => y = zeroBits w s
  | _, .zero => y = zeroBits w s
  | _, _ => RoundsTo w s (magnitude w a * magnitude w b) y

/-- DIV's contract: the table of R211 and the correctly rounded quotient (R3, R149). -/
def DivMeets (w : WidthPolicy) (a b y : BitVec w.totalBits) : Prop :=
  let s := signField w a ^^^ signField w b
  match kindOf w a, kindOf w b with
  | .nan, _ => y = a
  | _, .nan => y = b
  | .infinity, .infinity => y = qnanBits w
  | .infinity, _ => y = infBits w s
  | _, .infinity => y = zeroBits w s
  | .zero, .zero => y = qnanBits w
  | _, .zero => y = infBits w s
  | .zero, _ => y = zeroBits w s
  | _, _ => RoundsTo w s (magnitude w a / magnitude w b) y

/-- ROUNDSHIFT's contract within its range: `x` is the integer nearest to `m / 2^n`, the even one of two equally
near, and `exact` says that nothing was lost (R124, R127). -/
def RoundShiftMeets (m n x : Nat) (exact : Bool) : Prop :=
  (∀ k : Nat, |(x : ℚ) - (m : ℚ) / 2 ^ n| ≤ |(k : ℚ) - (m : ℚ) / 2 ^ n| ∧
    (|(x : ℚ) - (m : ℚ) / 2 ^ n| = |(k : ℚ) - (m : ℚ) / 2 ^ n| → k ≠ x → x % 2 = 0)) ∧
  (exact = true ↔ x * 2 ^ n = m)

end Sys2Proof.Machine
end

