-- ==== Sys2Proof/Safety.lean ====
section
/-!
DEFINITION. What counts as a safe run, and what the output ports must show: the terms the claims use.
-/

namespace Sys2Proof.Machine

/-- A requester's list of request lines, each issued and answered in turn (spec/10_state.md R22).  The run stops at the
first fault and reports it (spec/10_state.md R30, spec/60_exceptions.md R267). -/
def runLines : List Instr → State → Host.Outcome State Fault Refusal
  | [], s => .next s
  | i :: rest, s =>
    match step (s.issue i) with
    | .next t =>
      match t.faultMark with
      | some code => .fault (.runEnded code)
      | none => runLines rest t
    | .fault f => .fault f
    | .refused r => .refused r

/-- A run in which no request faulted. -/
def SafeRun (lines : List Instr) (s : State) : Prop := ∃ t, runLines lines s = .next t ∧ t.faultMark = none

/-- The response has the shape the request's operand format drives, or is the fault the rules give for that
request: a fault exactly for a reserved select and for a shift out of range (spec/30_encoding.md R68, R70, R79;
spec/60_exceptions.md R261 to R264). -/
def ResponseFits (w : WidthPolicy) (r : Request w) (o : Response w) : Prop :=
  match formatOf r.op with
  | .VV => ∃ y, o = .value y
  | .V1 => ∃ y, o = .value y
  | .P => ∃ y, o = .value y
  | .U => ∃ d, o = .unpacked d
  | .C => ∃ k d, o = .classified k d
  | .R => if r.rN.toNat ≤ w.manBits + 1 then ∃ x e, o = .shifted x e else o = .fault .rsShiftRange
  | .none => o = .fault .illegalOp

/-- The ports are wired: every instance shows a response that fits the request on its input ports. -/
def Wired (s : State) : Prop := ∀ w, ResponseFits w (s.inputs w) (s.outputs w)

/-- The outputs of both instances are the function of whatever is on their inputs (spec/70_reset_and_hazards.md R291): to
compute them again changes nothing. -/
def Settled (s : State) : Prop := s.settle = s

/-- The response is the one the rules of the selected operation give for the request, operation by operation
(spec/30_encoding.md R69). -/
def MeetsContract (w : WidthPolicy) (r : Request w) (o : Response w) : Prop :=
  match r.op.toNat with
  | 0 => ∃ y, o = .value y ∧ AddMeets w r.a r.b y
  | 1 => ∃ y, o = .value y ∧ AddMeets w r.a (r.b ^^^ w.signMask) y
  | 2 => ∃ y, o = .value y ∧ MulMeets w r.a r.b y
  | 3 => ∃ y, o = .value y ∧ DivMeets w r.a r.b y
  | 4 => o = .value (r.a ^^^ r.b)
  | 5 => o = .value (r.a &&& r.b)
  | 6 => o = .value r.a
  | 7 => o = .value r.a
  | 8 => o = .unpacked (decomposeRaw w r.a)
  | 9 => o = .value (composeRaw w r.cSign r.cExp.toNat r.cMan.toNat)
  | 10 => o = .classified (kindOf w r.a) (decomposeRaw w r.a)
  | 11 =>
    if r.rN.toNat ≤ w.manBits + 1 then
      ∃ x exact, o = .shifted x exact ∧ RoundShiftMeets r.rMan.toNat r.rN.toNat x.toNat exact
    else o = .fault .rsShiftRange
  | 12 => o = .value (r.a ^^^ w.signMask)
  | _ => o = .fault .illegalOp

/-- On every instance the output ports show the answer to the request on the input ports: "the outputs are at
all times the function of whatever is on the inputs" (spec/70_reset_and_hazards.md R291, R294). -/
def AnswersShown (s : State) : Prop := ∀ w, MeetsContract w (s.inputs w) (s.outputs w)

end Sys2Proof.Machine
end

