-- ==== Sys2Proof/WellFormed.lean ====
section
/-!
DEFINITION. The obligations the spec puts on a requester, as one check on a request line.  The port
widths of spec/30_encoding.md R66 are types, so an operand that does not fit its port cannot be written;
what is left to check are the three obligations below.  An ill-formed line still has its meaning
(a fault, or a silent truncation): the check excludes nothing from the model.
-/

namespace Sys2Proof

/-- The line selects an operation, not a reserved value (spec/30_encoding.md R70; U2 of
spec/93_implementation_defined.md). -/
def Instr.selectsOperation : Instr → Bool
  | .reserved13 _ => false
  | .reserved14 _ => false
  | .reserved15 _ => false
  | .add _ _ _ => true
  | .sub _ _ _ => true
  | .mul _ _ _ => true
  | .div _ _ _ => true
  | .xorBits _ _ _ => true
  | .andBits _ _ _ => true
  | .fromBits _ _ => true
  | .toBits _ _ => true
  | .decompose _ _ => true
  | .compose _ _ _ _ => true
  | .classify _ _ => true
  | .roundShift _ _ _ => true
  | .flipSign _ _ => true

/-- Before COMPOSE, clamp: `c_exp <= EMAXB` and `c_man <= MAN_MASK` (spec/70_reset_and_hazards.md R298). -/
def composeClamped (w : WidthPolicy) (exp man : BitVec w.totalBits) : Bool :=
  decide (exp.toNat ≤ w.maxBiasedExp) && decide (man.toNat ≤ w.manMask)

/-- Keep ROUNDSHIFT's shift in range: `r_n <= MB + 1` (spec/70_reset_and_hazards.md R299). -/
def shiftInRange (w : WidthPolicy) (n : ShiftAmount) : Bool :=
  decide (n.toNat ≤ w.manBits + 1)

/-- The line meets every obligation the spec puts on the requester (R70, R298, R299). -/
def WellFormed (i : Instr) : Bool :=
  i.selectsOperation &&
    (match i with
      | .compose w _ exp man => composeClamped w exp man
      | .roundShift w _ n => shiftInRange w n
      | .add _ _ _ | .sub _ _ _ | .mul _ _ _ | .div _ _ _ | .xorBits _ _ _ | .andBits _ _ _
      | .fromBits _ _ | .toBits _ _ | .decompose _ _ | .classify _ _ | .flipSign _ _
      | .reserved13 _ | .reserved14 _ | .reserved15 _ => true)

end Sys2Proof
end

