-- ==== Sys2Proof/Certificates/Slice0/Obligations.lean ====
section
/-!
DEFINITION. The statements for the provers.  Every docstring names the rules of spec/ a statement formalises, or
says that it rests on a choice of the model's, with the log entry.
-/

open Sys2Proof Sys2Proof.Machine

/-! ### encoding -/

/-- R66 to R72, R74: a request decodes to the line `i` exactly when it carries `i`'s select and `i`'s value on every
input port `i`'s format reads; so decoding an encoding gives the line back, and no other port matters. -/
def Obligations.DecodeInvertsEncode : Prop :=
  ∀ (i : Instr) (r : Request i.policy),
    decode i.policy r = i ↔ r.op = (encode i).op ∧ Request.agreeOn (formatOf r.op) r (encode i)

/-- R69, R70: the sixteen selects as raw words; that a raw word carries `op` in its low 4 bits, is for the Binary32
instance and is rejected when a higher bit is set is the model's choice (log 7). -/
def Obligations.TableWordsDecode : Prop :=
  decodeTableWord 8 0x0 = some (.add .binary32 0 0) ∧ decodeTableWord 8 0x1 = some (.sub .binary32 0 0) ∧
  decodeTableWord 8 0x2 = some (.mul .binary32 0 0) ∧ decodeTableWord 8 0x3 = some (.div .binary32 0 0) ∧
  decodeTableWord 8 0x4 = some (.xorBits .binary32 0 0) ∧
  decodeTableWord 8 0x5 = some (.andBits .binary32 0 0) ∧
  decodeTableWord 8 0x6 = some (.fromBits .binary32 0) ∧ decodeTableWord 8 0x7 = some (.toBits .binary32 0) ∧
  decodeTableWord 8 0x8 = some (.decompose .binary32 0) ∧
  decodeTableWord 8 0x9 = some (.compose .binary32 0 0 0) ∧
  decodeTableWord 8 0xA = some (.classify .binary32 0) ∧
  decodeTableWord 8 0xB = some (.roundShift .binary32 0 0) ∧
  decodeTableWord 8 0xC = some (.flipSign .binary32 0) ∧
  decodeTableWord 8 0xD = some (.reserved13 .binary32) ∧ decodeTableWord 8 0xE = some (.reserved14 .binary32) ∧
  decodeTableWord 8 0xF = some (.reserved15 .binary32) ∧
  ∀ word, 16 ≤ word → decodeTableWord 8 word = none

/-! ### the step -/

/-- R67, R74: an unmarked step is `exec` of the line the selected instance decodes from its input ports, and after
the requester issues a line the step runs that line.  That a marked state stops is the model's choice (R30; log 5). -/
def Obligations.StepRunsTheDecodedLine : Prop :=
  (∀ s : State, s.faultMark = none → step s = exec (decode s.sel (s.inputs s.sel)) s) ∧
  (∀ (s : State) (i : Instr), s.faultMark = none → step (s.issue i) = exec i (s.issue i)) ∧
  (∀ (s : State) (c : FaultCode), s.faultMark = some c → step s = .fault (.runEnded c))

/-- R265 ("A request once presented is always answered."): every line has a next state in every state. -/
def Obligations.EveryLineIsAnswered : Prop :=
  ∀ (i : Instr) (s : State), ∃ t, exec i s = .next t

/-- R79, R260 to R264: the fault outputs of every line's response: code 2 for a reserved select, code 1 for a
ROUNDSHIFT whose shift exceeds `MB + 1`, otherwise no fault; `fault` is 1 exactly when the code is not 0. -/
def Obligations.FaultOutputsOfEveryLine : Prop :=
  ∀ (i : Instr) (s t : State), exec i s = .next t →
    (t.outputs i.policy).faultCodePort =
      (match i with
        | .reserved13 _ | .reserved14 _ | .reserved15 _ => 2
        | .roundShift w _ n => if w.manBits + 1 < n.toNat then 1 else 0
        | .add _ _ _ | .sub _ _ _ | .mul _ _ _ | .div _ _ _ | .xorBits _ _ _ | .andBits _ _ _
        | .fromBits _ _ | .toBits _ _ | .decompose _ _ | .compose _ _ _ _ | .classify _ _
        | .flipSign _ _ => 0) ∧
    ((t.outputs i.policy).faultPort = 1 ↔ (t.outputs i.policy).faultCodePort ≠ 0)

/-- R20, R44, R260, R274: the frame of every line.  Only the response of the line's own instance changes: all input
ports, the other instance's outputs and the selection are as before, and so is the model's mark unless a fault is raised,
when the mark keeps the first fault (R30; log 5). -/
def Obligations.FrameOfEveryLine : Prop :=
  ∀ (i : Instr) (s t : State), exec i s = .next t →
    t.sel = s.sel ∧ t.in32 = s.in32 ∧ t.in64 = s.in64 ∧
    (∀ w, w ≠ i.policy → t.outputs w = s.outputs w) ∧
    t.faultMark =
      (match t.outputs i.policy with
        | .fault c => some (s.faultMark.getD c)
        | .value _ | .unpacked _ | .classified _ _ | .shifted _ _ => s.faultMark)

/-- R20, R47, R296: the response to a line is the same in every two states, whatever came before. -/
def Obligations.SameLineSameResponse : Prop :=
  ∀ (i : Instr) (s s' t t' : State), exec i s = .next t → exec i s' = .next t' →
    t.outputs i.policy = t'.outputs i.policy

/-- R71: inputs that the operation's format does not name are ignored, and nothing else in the state is looked at:
two steps on requests that agree on the select and the named ports give the same response. -/
def Obligations.OnlyNamedPortsMatter : Prop :=
  ∀ (w : WidthPolicy) (r r' : Request w) (s s' t t' : State),
    r.op = r'.op → Request.agreeOn (formatOf r.op) r r' →
    step (s.present w r) = .next t → step (s'.present w r') = .next t' →
    t.outputs w = t'.outputs w

/-- R31, R47, R274: two lines for different instances commute, in every port of both instances. -/
def Obligations.InstancesDoNotInterfere : Prop :=
  ∀ (i j : Instr) (s s1 s2 t1 t2 : State), i.policy ≠ j.policy →
    exec i s = .next s1 → exec j s1 = .next s2 → exec j s = .next t1 → exec i t1 = .next t2 →
    ∀ w, s2.outputs w = t2.outputs w ∧ s2.inputs w = t2.inputs w

/-- R44 ("presenting the same request twice gives the same response twice"): answering the same ports again changes
nothing. -/
def Obligations.AnsweringAgainChangesNothing : Prop :=
  ∀ s t : State, step s = .next t → t.faultMark = none → step t = .next t

/-! ### safe runs -/

/-- R262, R269, R298, R299: a list of lines that meet the requester's obligations runs to its end without a
fault, from every unmarked state. -/
def Obligations.WellFormedRunsAreSafe : Prop :=
  ∀ (lines : List Instr) (s : State), (∀ i ∈ lines, WellFormed i = true) → s.faultMark = none →
    SafeRun lines s

/-- R30, R267: a run stops at its first faulting line and reports that line's fault, whatever follows.  How the
model stops a run is its own choice (log 5). -/
def Obligations.RunStopsAtTheFirstFault : Prop :=
  ∀ (before after : List Instr) (i : Instr) (s : State),
    (∀ j ∈ before, WellFormed j = true) → s.faultMark = none →
    (i.selectsOperation = false →
      runLines (before ++ i :: after) s = .fault (.runEnded .illegalOp)) ∧
    (∀ w man n, i = .roundShift w man n → w.manBits + 1 < n.toNat →
      runLines (before ++ i :: after) s = .fault (.runEnded .rsShiftRange))

/-! ### invariants of every step -/

/-- R68, R79, R261, R263, R30: from every state whose ports are wired (each response fits its request's format and is a
fault exactly where the rules raise one), a step leads to such a state, in which a fault on the instance answered is
marked (log 5). -/
def Obligations.StepKeepsPortsWired : Prop :=
  ∀ s t : State, Wired s → step s = .next t →
    Wired t ∧ ∀ code, t.outputs t.sel = .fault code → t.faultMark = some code

/-- The state after reset is wired.  Its values are the model's choice (log 2 to 5). -/
def Obligations.ResetPortsAreWired : Prop := Wired State.reset

/-- R291, R294: from every state in which the outputs of both instances are the function of their inputs, a step leads
to such a state. -/
def Obligations.StepKeepsPortsSettled : Prop :=
  ∀ s t : State, Settled s → step s = .next t → Settled t

/-- After reset the outputs are the function of the inputs.  The inputs' values are the model's choice (log 3, 4). -/
def Obligations.ResetPortsAreSettled : Prop := Settled State.reset

/-- R291, R294: presenting a request, issuing a line or placing a word leaves the outputs of both instances the function of
their inputs at once, before any step, whatever the state before; what an instance shows then depends on its own inputs
alone, and after a line is issued it is the response that the line's meaning gives. -/
def Obligations.OutputsFollowInputsAtOnce : Prop :=
  (∀ (s : State) (w : WidthPolicy) (r : Request w), Settled (s.present w r)) ∧
  (∀ (s : State) (i : Instr), Settled (s.issue i)) ∧
  (∀ (s : State) (nbits word : Nat), Settled (s.withFetchWord nbits word)) ∧
  (∀ (s s' : State) (w : WidthPolicy), Settled s → Settled s' → s.inputs w = s'.inputs w →
    s.outputs w = s'.outputs w) ∧
  (∀ (i : Instr) (s t : State), exec i s = .next t → (s.issue i).outputs i.policy = t.outputs i.policy)

/-- R67, R291, R294: where the outputs are the function of the inputs, a step answers with the response that the ports show
already: no port of either instance changes. -/
def Obligations.StepAnswersWhatThePortsShow : Prop :=
  ∀ s t : State, Settled s → step s = .next t →
    t.sel = s.sel ∧ ∀ w, t.inputs w = s.inputs w ∧ t.outputs w = s.outputs w

/-- R291, R294 with the contract of every operation (R69): once a request is presented, both instances show the answer the
rules give to the request on their input ports, whatever the state before. -/
def Obligations.PresentShowsAnswers : Prop :=
  ∀ (s : State) (w : WidthPolicy) (r : Request w), AnswersShown (s.present w r)

/-- R291, R294 with the contract of every operation (R69): from every state in which both instances show the answer the
rules give to the request on their input ports, a step leads to such a state. -/
def Obligations.StepKeepsAnswersShown : Prop :=
  ∀ s t : State, AnswersShown s → step s = .next t → AnswersShown t

/-- After reset both instances show the answer to their input ports.  The reset values are the model's
choice (log 3, 4). -/
def Obligations.ResetShowsAnswers : Prop := AnswersShown State.reset

/-- R294, R67: whatever the state before, an unmarked step makes the selected instance show the answer the rules give
to the request on its input ports: the contract of every operation on the machine's own step. -/
def Obligations.StepAnswersByContract : Prop :=
  ∀ s : State, s.faultMark = none →
    ∃ t, step s = .next t ∧ MeetsContract s.sel (s.inputs s.sel) (t.outputs s.sel)

/-! ### fp_bit_unpacker -/

/-- R90: DECOMPOSE (`op = 8`) answers with the three fields, as numbers. -/
def Obligations.DecomposeReadsFields : Prop :=
  ∀ (w : WidthPolicy) (a : BitVec w.totalBits) (s : State),
    (encode (.decompose w a)).op = 8#4 ∧
    ∃ d : Decomposed w, exec (.decompose w a) s = .next (s.drive w (.unpacked d)) ∧
      d.sign.toNat = a.toNat / 2 ^ (w.totalBits - 1) ∧
      d.biasedExponent.toNat = a.toNat / 2 ^ w.manBits % 2 ^ w.expBits ∧
      d.storedMantissa.toNat = a.toNat % 2 ^ w.manBits

/-- R91: COMPOSE answers with the packed fields, an over-wide exponent or mantissa truncated without a fault. -/
def Obligations.ComposePacksTruncatedFields : Prop :=
  ∀ (w : WidthPolicy) (sign : Sign) (exp man : BitVec w.totalBits) (s : State),
    ∃ y, exec (.compose w sign exp man) s = .next (s.drive w (.value y)) ∧
      y.toNat = sign.toNat * 2 ^ (w.totalBits - 1) + exp.toNat % 2 ^ w.expBits * 2 ^ w.manBits
        + man.toNat % 2 ^ w.manBits

/-- R92: the round-trip laws (a) and (b), and (b) with truncations outside the legal inputs. -/
def Obligations.ComposeAndDecomposeAreInverse : Prop :=
  (∀ (w : WidthPolicy) (r : BitVec w.totalBits),
    composeRaw w (decomposeRaw w r).sign (decomposeRaw w r).biasedExponent.toNat
      (decomposeRaw w r).storedMantissa.toNat = r) ∧
  (∀ (w : WidthPolicy) (sign : Sign) (be sm : Nat), be < 2 ^ w.expBits → sm < 2 ^ w.manBits →
    (decomposeRaw w (composeRaw w sign be sm)).sign = sign ∧
    (decomposeRaw w (composeRaw w sign be sm)).biasedExponent.toNat = be ∧
    (decomposeRaw w (composeRaw w sign be sm)).storedMantissa.toNat = sm) ∧
  (∀ (w : WidthPolicy) (sign : Sign) (be sm : Nat),
    (decomposeRaw w (composeRaw w sign be sm)).sign = sign ∧
    (decomposeRaw w (composeRaw w sign be sm)).biasedExponent.toNat = be % 2 ^ w.expBits ∧
    (decomposeRaw w (composeRaw w sign be sm)).storedMantissa.toNat = sm % 2 ^ w.manBits)

/-- R93, R112: `unpack_finite` of a finite pattern keeps the sign and denotes the pattern's magnitude; the implicit bit is
set exactly when the exponent field is not 0, and the exponent is `EMIN` or the field less the bias. -/
def Obligations.UnpackFiniteKeepsTheValue : Prop :=
  ∀ (w : WidthPolicy) (x : BitVec w.totalBits), (kindOf w x).isFinite = true →
    (unpackFinite w x).sign = signField w x ∧
    (expField w x = 0 → (unpackFinite w x).man = (manField w x).toNat ∧ (unpackFinite w x).exp = w.minExp) ∧
    (expField w x ≠ 0 → (unpackFinite w x).man = 2 ^ w.manBits + (manField w x).toNat ∧
      (unpackFinite w x).exp = ((expField w x).toNat : Int) - (w.bias : Int)) ∧
    magnitude w x = ((unpackFinite w x).man : ℚ) * 2 ^ ((unpackFinite w x).exp - (w.manBits : Int)) ∧
    (unpackFinite w x).man < 2 ^ w.sigBits ∧
    ((unpackFinite w x).man.testBit w.manBits = true ↔ expField w x ≠ 0)

/-- R94: `prenormalize` of a nonzero `p`-bit mantissa sets the leading bit at position `MB` and keeps the value; a mantissa
whose leading bit is set already stays, and the exponent falls by `MB` at most. -/
def Obligations.PrenormalizeKeepsTheValue : Prop :=
  ∀ (w : WidthPolicy) (u : Unpacked), 0 < u.man → u.man < 2 ^ w.sigBits →
    (prenormalize w u).sign = u.sign ∧
    w.hidden ≤ (prenormalize w u).man ∧ (prenormalize w u).man < 2 ^ w.sigBits ∧
    ((prenormalize w u).man : ℚ) * 2 ^ (prenormalize w u).exp = (u.man : ℚ) * 2 ^ u.exp ∧
    (w.hidden ≤ u.man → prenormalize w u = u) ∧
    u.exp - (w.manBits : Int) ≤ (prenormalize w u).exp ∧ (prenormalize w u).exp ≤ u.exp

/-- R64: the named bit patterns of both policies. -/
def Obligations.NamedPatterns : Prop :=
  zeroBits .binary32 0 = 0x00000000#32 ∧ zeroBits .binary32 1 = 0x80000000#32 ∧
  infBits .binary32 0 = 0x7F800000#32 ∧ infBits .binary32 1 = 0xFF800000#32 ∧
  qnanBits .binary32 = 0x7FC00000#32 ∧ WidthPolicy.signMask .binary32 = 0x80000000#32 ∧
  zeroBits .binary64 0 = 0x0000000000000000#64 ∧ zeroBits .binary64 1 = 0x8000000000000000#64 ∧
  infBits .binary64 0 = 0x7FF0000000000000#64 ∧ infBits .binary64 1 = 0xFFF0000000000000#64 ∧
  qnanBits .binary64 = 0x7FF8000000000000#64 ∧ WidthPolicy.signMask .binary64 = 0x8000000000000000#64 ∧
  composeRaw .binary32 0 (WidthPolicy.maxBiasedExp .binary32 - 1) (WidthPolicy.manMask .binary32) = 0x7F7FFFFF#32 ∧
  composeRaw .binary64 0 (WidthPolicy.maxBiasedExp .binary64 - 1) (WidthPolicy.manMask .binary64) =
    0x7FEFFFFFFFFFFFFF#64 ∧
  composeRaw .binary32 0 1 0 = 0x00800000#32 ∧ composeRaw .binary64 0 1 0 = 0x0010000000000000#64 ∧
  composeRaw .binary32 0 0 1 = 0x00000001#32 ∧ composeRaw .binary64 0 0 1 = 0x0000000000000001#64

/-! ### fp_classifier -/

/-- R110: CLASSIFY (`op = 10`) answers with the fields of DECOMPOSE and the one Kind whose definition holds. -/
def Obligations.ClassifyGivesTheOneKind : Prop :=
  ∀ (w : WidthPolicy) (a : BitVec w.totalBits) (s : State),
    (encode (.classify w a)).op = 10#4 ∧
    ∃ k, exec (.classify w a) s = .next (s.drive w (.classified k (decomposeRaw w a))) ∧
      (k = .zero ↔ a.toNat / 2 ^ w.manBits % 2 ^ w.expBits = 0 ∧ a.toNat % 2 ^ w.manBits = 0) ∧
      (k = .subnormal ↔ a.toNat / 2 ^ w.manBits % 2 ^ w.expBits = 0 ∧ a.toNat % 2 ^ w.manBits ≠ 0) ∧
      (k = .normal ↔ 0 < a.toNat / 2 ^ w.manBits % 2 ^ w.expBits ∧
        a.toNat / 2 ^ w.manBits % 2 ^ w.expBits < 2 ^ w.expBits - 1) ∧
      (k = .infinity ↔ a.toNat / 2 ^ w.manBits % 2 ^ w.expBits = 2 ^ w.expBits - 1 ∧
        a.toNat % 2 ^ w.manBits = 0) ∧
      (k = .nan ↔ a.toNat / 2 ^ w.manBits % 2 ^ w.expBits = 2 ^ w.expBits - 1 ∧
        a.toNat % 2 ^ w.manBits ≠ 0)

/-- R65: the encoding of the Kinds on the 3-bit output `kind`; 5, 6 and 7 are never produced. -/
def Obligations.KindPortEncoding : Prop :=
  Kind.code .zero = 0b000#3 ∧ Kind.code .subnormal = 0b001#3 ∧ Kind.code .normal = 0b010#3 ∧
  Kind.code .infinity = 0b011#3 ∧ Kind.code .nan = 0b100#3 ∧
  (∀ (w : WidthPolicy) (k : Kind) (d : Decomposed w), (Response.classified k d).kindPort = some k.code) ∧
  (∀ (w : WidthPolicy) (r : Response w) (c : BitVec 3), r.kindPort = some c → c.toNat ≤ 4)

/-- R114: the range of the nonzero finite magnitudes, with both ends reached, and the smallest normal. -/
def Obligations.FiniteMagnitudeRange : Prop :=
  (∀ w : WidthPolicy,
    (∀ x : BitVec w.totalBits, (kindOf w x).isFinite = true → kindOf w x ≠ .zero →
      (2 : ℚ) ^ (w.minExp - (w.manBits : Int)) ≤ magnitude w x ∧
      magnitude w x ≤ ((2 ^ w.sigBits - 1 : Nat) : ℚ) * 2 ^ (w.maxExp - (w.manBits : Int))) ∧
    (∀ x : BitVec w.totalBits, kindOf w x = .normal → (2 : ℚ) ^ w.minExp ≤ magnitude w x) ∧
    magnitude w (composeRaw w 0 0 1) = (2 : ℚ) ^ (w.minExp - (w.manBits : Int)) ∧
    magnitude w (composeRaw w 0 1 0) = (2 : ℚ) ^ w.minExp ∧
    magnitude w (composeRaw w 0 (w.maxBiasedExp - 1) w.manMask) =
      ((2 ^ w.sigBits - 1 : Nat) : ℚ) * 2 ^ (w.maxExp - (w.manBits : Int))) ∧
  WidthPolicy.minExp .binary32 - 23 = -149 ∧ WidthPolicy.minExp .binary64 - 52 = -1074 ∧
  composeRaw .binary32 0 (WidthPolicy.maxBiasedExp .binary32 - 1) (WidthPolicy.manMask .binary32) = 0x7F7FFFFF#32 ∧
  composeRaw .binary64 0 (WidthPolicy.maxBiasedExp .binary64 - 1) (WidthPolicy.manMask .binary64) =
    0x7FEFFFFFFFFFFFFF#64

/-! ### fp_rounding_engine -/

/-- R127: within the range, ROUNDSHIFT's `shifted` is the integer nearest to `mantissa / 2^n`, the even one of two
equally near; it is the truncated value or one more, monotone in the mantissa, and 0 (exact) for mantissa 0. -/
def Obligations.RoundShiftIsNearestEven : Prop :=
  (∀ (w : WidthPolicy) (man : BitVec w.extBits) (n : ShiftAmount) (s : State), n.toNat ≤ w.manBits + 1 →
    ∃ x exact, exec (.roundShift w man n) s = .next (s.drive w (.shifted x exact)) ∧
      (∀ k : Nat, |(x.toNat : ℚ) - (man.toNat : ℚ) / 2 ^ n.toNat| ≤ |(k : ℚ) - (man.toNat : ℚ) / 2 ^ n.toNat| ∧
        (|(x.toNat : ℚ) - (man.toNat : ℚ) / 2 ^ n.toNat| = |(k : ℚ) - (man.toNat : ℚ) / 2 ^ n.toNat| →
          k ≠ x.toNat → x.toNat % 2 = 0)) ∧
      man.toNat / 2 ^ n.toNat ≤ x.toNat ∧ x.toNat ≤ man.toNat / 2 ^ n.toNat + 1 ∧
      (man = 0 → x = 0 ∧ exact = true)) ∧
  (∀ (w : WidthPolicy) (X X' n : Nat) (r r' : Nat × Bool), X ≤ X' →
    roundShift w X n = .ok r → roundShift w X' n = .ok r' → r.1 ≤ r'.1)

/-- R124: `exact` is true exactly when all `n` shifted-out bits are zero, that is when `shifted * 2^n` is the
mantissa. -/
def Obligations.RoundShiftExactOutput : Prop :=
  ∀ (w : WidthPolicy) (man : BitVec w.extBits) (n : ShiftAmount) (s : State), n.toNat ≤ w.manBits + 1 →
    ∃ x exact, exec (.roundShift w man n) s = .next (s.drive w (.shifted x exact)) ∧
      (exact = true ↔ ∀ i, i < n.toNat → man.getLsbD i = false) ∧
      (exact = true ↔ x.toNat * 2 ^ n.toNat = man.toNat)

/-- R123: a shift of zero returns the mantissa unchanged, exact. -/
def Obligations.RoundShiftByZero : Prop :=
  ∀ (w : WidthPolicy) (man : BitVec w.extBits) (s : State),
    exec (.roundShift w man 0) s = .next (s.drive w (.shifted man true))

/-- R263: ROUNDSHIFT with `r_n > MB + 1` (Binary32: 25 and up; Binary64: 54 and up) raises `RS_SHIFT_RANGE`, code 1,
for every mantissa, and no other line can. -/
def Obligations.ShiftRangeFault : Prop :=
  (∀ (w : WidthPolicy) (man : BitVec w.extBits) (n : ShiftAmount) (s : State), w.manBits + 1 < n.toNat →
    ∃ t, exec (.roundShift w man n) s = .next t ∧ t.outputs w = .fault .rsShiftRange ∧
      (t.outputs w).faultPort = 1 ∧ (t.outputs w).faultCodePort = 1) ∧
  (∀ n : ShiftAmount, (WidthPolicy.manBits .binary32 + 1 < n.toNat ↔ 25 ≤ n.toNat) ∧
    (WidthPolicy.manBits .binary64 + 1 < n.toNat ↔ 54 ≤ n.toNat)) ∧
  (∀ (i : Instr) (s t : State), exec i s = .next t → t.outputs i.policy = .fault .rsShiftRange →
    ∃ w man n, i = .roundShift w man n ∧ w.manBits + 1 < n.toNat)

/-! ### the normalize, round and pack stage -/

/-- R141: `jam_shift` is the truncated value with its bit 0 set when something nonzero was lost; for `k >= bitlen(X)`
it is 1 for a nonzero `X` and 0 for 0; before a rounding shift of two places or more it loses nothing: the two together
round as the one shift by the sum. -/
def Obligations.JamShiftKeepsLostBits : Prop :=
  (∀ X k : Nat, jamShift X k / 2 = X / 2 ^ k / 2 ∧
    (jamShift X k % 2 = 1 ↔ X / 2 ^ k % 2 = 1 ∨ X % 2 ^ k ≠ 0)) ∧
  (∀ X k : Nat, bitLength X ≤ k → jamShift X k = if X = 0 then 0 else 1) ∧
  (∀ X k n : Nat, 2 ≤ n → roundedShift (jamShift X k) n = roundedShift X (k + n))

/-- R140, R149: under its preconditions `nrp(s, e, X, g)` returns the pattern of `X * 2^(e - MB - g)` with sign `s`, rounded
once to nearest, ties to even, with `INF(s)` on overflow. -/
def Obligations.NrpRoundsCorrectly : Prop :=
  ∀ (w : WidthPolicy) (s : Sign) (e : Int) (X g : Nat),
    0 < X → X < 2 ^ (w.sigBits + g + 1) → 1 ≤ g → g ≤ w.manBits →
    ∃ y, nrp w s e X g = .ok y ∧
      RoundsTo w s ((X : ℚ) * 2 ^ (e - (w.manBits : Int) - (g : Int))) y

/-! ### fp_adder_sub -/

/-- R262, R268: ADD, SUB, MUL and DIV answer every operand pair with a value: they are total and never fault. -/
def Obligations.ArithmeticAlwaysReturnsAValue : Prop :=
  ∀ (w : WidthPolicy) (a b : BitVec w.totalBits) (s : State),
    (∃ y, exec (.add w a b) s = .next (s.drive w (.value y))) ∧
    (∃ y, exec (.sub w a b) s = .next (s.drive w (.value y))) ∧
    (∃ y, exec (.mul w a b) s = .next (s.drive w (.value y))) ∧
    (∃ y, exec (.div w a b) s = .next (s.drive w (.value y)))

/-- R163 to R166: ADD's special rows. -/
def Obligations.AddSpecialRows : Prop :=
  ∀ (w : WidthPolicy) (a b : BitVec w.totalBits) (s : State),
    (kindOf w a = .nan → exec (.add w a b) s = .next (s.drive w (.value a))) ∧
    (kindOf w a ≠ .nan → kindOf w b = .nan → exec (.add w a b) s = .next (s.drive w (.value b))) ∧
    (kindOf w a = .infinity → kindOf w b = .infinity → signField w a = signField w b →
      exec (.add w a b) s = .next (s.drive w (.value a))) ∧
    (kindOf w a = .infinity → kindOf w b = .infinity → signField w a ≠ signField w b →
      exec (.add w a b) s = .next (s.drive w (.value (qnanBits w)))) ∧
    (kindOf w a = .infinity → (kindOf w b).isFinite = true →
      exec (.add w a b) s = .next (s.drive w (.value a))) ∧
    ((kindOf w a).isFinite = true → kindOf w b = .infinity →
      exec (.add w a b) s = .next (s.drive w (.value b))) ∧
    (kindOf w a = .zero → kindOf w b = .zero → signField w a = signField w b →
      exec (.add w a b) s = .next (s.drive w (.value a))) ∧
    (kindOf w a = .zero → kindOf w b = .zero → signField w a ≠ signField w b →
      exec (.add w a b) s = .next (s.drive w (.value (zeroBits w 0)))) ∧
    (kindOf w a = .zero → (kindOf w b).isFinite = true → kindOf w b ≠ .zero →
      exec (.add w a b) s = .next (s.drive w (.value b))) ∧
    ((kindOf w a).isFinite = true → kindOf w a ≠ .zero → kindOf w b = .zero →
      exec (.add w a b) s = .next (s.drive w (.value a)))

/-- R3, R160, R149: the sum of two finite values that is not 0 is the exact sum correctly rounded. -/
def Obligations.AddRoundsCorrectly : Prop :=
  ∀ (w : WidthPolicy) (a b : BitVec w.totalBits) (s : State),
    (kindOf w a).isFinite = true → (kindOf w b).isFinite = true → valueOf w a + valueOf w b ≠ 0 →
    ∃ y, exec (.add w a b) s = .next (s.drive w (.value y)) ∧
      RoundsTo w (signOfRat (valueOf w a + valueOf w b)) |valueOf w a + valueOf w b| y

/-- R170, R173 (c): an exact sum of 0 from nonzero finite operands is `+0`, and so is `x + flip_sign(x)` for every
finite `x`, zeros included. -/
def Obligations.ExactCancellationIsPlusZero : Prop :=
  (∀ (w : WidthPolicy) (a b : BitVec w.totalBits) (s : State),
    (kindOf w a).isFinite = true → (kindOf w b).isFinite = true → kindOf w a ≠ .zero →
    valueOf w a + valueOf w b = 0 →
    exec (.add w a b) s = .next (s.drive w (.value (zeroBits w 0)))) ∧
  (∀ (w : WidthPolicy) (x : BitVec w.totalBits) (s : State), (kindOf w x).isFinite = true →
    exec (.add w x (flipSignBits w x)) s = .next (s.drive w (.value (zeroBits w 0))))

/-- R173 (a): ADD is commutative, bit for bit, unless both operands are NaN. -/
def Obligations.AddCommutes : Prop :=
  ∀ (w : WidthPolicy) (a b : BitVec w.totalBits) (s : State),
    ¬(kindOf w a = .nan ∧ kindOf w b = .nan) →
    exec (.add w a b) s = exec (.add w b a) s

/-- R173 (b): `x + (+0) = x` for every `x` but `-0`, for which the sum is `+0`. -/
def Obligations.PlusZeroIsAddIdentity : Prop :=
  ∀ (w : WidthPolicy) (s : State),
    (∀ x : BitVec w.totalBits, x ≠ zeroBits w 1 →
      exec (.add w x (zeroBits w 0)) s = .next (s.drive w (.value x))) ∧
    exec (.add w (zeroBits w 1) (zeroBits w 0)) s = .next (s.drive w (.value (zeroBits w 0)))

/-- R174: the computed path gives a nonzero finite operand back, bit for bit, when the other operand is a Zero, so the
rows T7 and T8 change no result; and it gives `+0` for two Zeros of any signs, which is why the row T6 is needed. -/
def Obligations.ZeroRowsAgreeWithComputedPath : Prop :=
  (∀ (w : WidthPolicy) (z x : BitVec w.totalBits),
    kindOf w z = .zero → (kindOf w x).isFinite = true → kindOf w x ≠ .zero →
    addComputed w z x = .ok x ∧ addComputed w x z = .ok x) ∧
  (∀ (w : WidthPolicy) (z z' : BitVec w.totalBits),
    kindOf w z = .zero → kindOf w z' = .zero → addComputed w z z' = .ok (zeroBits w 0))

/-- R161: SUB (`op = 1`) is ADD of the right operand with its sign bit flipped, for every pair of bit patterns; so a left
NaN comes back unchanged and a right NaN with its sign bit flipped, `x - x` is `+0` for finite and `QNAN` for infinite
`x`, and the difference of two zeros is `-0` only for `(-0) - (+0)`. -/
def Obligations.SubIsAddOfFlippedRight : Prop :=
  (∀ (w : WidthPolicy) (a b : BitVec w.totalBits) (s : State),
    (encode (.sub w a b)).op = 1#4 ∧
    exec (.sub w a b) s = exec (.add w a (b ^^^ w.signMask)) s ∧
    (kindOf w a = .nan → exec (.sub w a b) s = .next (s.drive w (.value a))) ∧
    (kindOf w a ≠ .nan → kindOf w b = .nan →
      exec (.sub w a b) s = .next (s.drive w (.value (b ^^^ w.signMask)))) ∧
    ((kindOf w a).isFinite = true → exec (.sub w a a) s = .next (s.drive w (.value (zeroBits w 0)))) ∧
    (kindOf w a = .infinity → exec (.sub w a a) s = .next (s.drive w (.value (qnanBits w))))) ∧
  (∀ (w : WidthPolicy) (s : State),
    exec (.sub w (zeroBits w 1) (zeroBits w 1)) s = .next (s.drive w (.value (zeroBits w 0))) ∧
    exec (.sub w (zeroBits w 1) (zeroBits w 0)) s = .next (s.drive w (.value (zeroBits w 1))) ∧
    exec (.sub w (zeroBits w 0) (zeroBits w 0)) s = .next (s.drive w (.value (zeroBits w 0))) ∧
    exec (.sub w (zeroBits w 0) (zeroBits w 1)) s = .next (s.drive w (.value (zeroBits w 0))))

/-- R161, R3, R149: the difference of two finite values that is not 0 is the exact difference correctly rounded. -/
def Obligations.SubRoundsCorrectly : Prop :=
  ∀ (w : WidthPolicy) (a b : BitVec w.totalBits) (s : State),
    (kindOf w a).isFinite = true → (kindOf w b).isFinite = true → valueOf w a - valueOf w b ≠ 0 →
    ∃ y, exec (.sub w a b) s = .next (s.drive w (.value y)) ∧
      RoundsTo w (signOfRat (valueOf w a - valueOf w b)) |valueOf w a - valueOf w b| y

/-- R162: FLIPSIGN (`op = 12`) answers with the same bits but the sign bit, which is inverted; twice is the identity, the Kind stays,
and it is XOR with the sign-bit mask. -/
def Obligations.FlipSignTogglesOnlyTheSign : Prop :=
  ∀ (w : WidthPolicy) (a : BitVec w.totalBits) (s : State),
    (encode (.flipSign w a)).op = 12#4 ∧
    ∃ y, exec (.flipSign w a) s = .next (s.drive w (.value y)) ∧
      (∀ i, i < w.totalBits - 1 → y.getLsbD i = a.getLsbD i) ∧
      y.getLsbD (w.totalBits - 1) = !a.getLsbD (w.totalBits - 1) ∧
      exec (.flipSign w y) s = .next (s.drive w (.value a)) ∧
      kindOf w y = kindOf w a ∧
      exec (.xorBits w a w.signMask) s = .next (s.drive w (.value y))

/-! ### fp_multiplier -/

/-- R191 to R194: MUL's special rows. -/
def Obligations.MulSpecialRows : Prop :=
  ∀ (w : WidthPolicy) (a b : BitVec w.totalBits) (s : State),
    (kindOf w a = .nan → exec (.mul w a b) s = .next (s.drive w (.value a))) ∧
    (kindOf w a ≠ .nan → kindOf w b = .nan → exec (.mul w a b) s = .next (s.drive w (.value b))) ∧
    (kindOf w a = .infinity → kindOf w b = .zero →
      exec (.mul w a b) s = .next (s.drive w (.value (qnanBits w)))) ∧
    (kindOf w a = .zero → kindOf w b = .infinity →
      exec (.mul w a b) s = .next (s.drive w (.value (qnanBits w)))) ∧
    (kindOf w a = .infinity → kindOf w b ≠ .nan → kindOf w b ≠ .zero →
      exec (.mul w a b) s = .next (s.drive w (.value (infBits w (signField w a ^^^ signField w b))))) ∧
    (kindOf w a ≠ .nan → kindOf w a ≠ .zero → kindOf w b = .infinity →
      exec (.mul w a b) s = .next (s.drive w (.value (infBits w (signField w a ^^^ signField w b))))) ∧
    (kindOf w a = .zero → (kindOf w b).isFinite = true →
      exec (.mul w a b) s = .next (s.drive w (.value (zeroBits w (signField w a ^^^ signField w b))))) ∧
    ((kindOf w a).isFinite = true → kindOf w b = .zero →
      exec (.mul w a b) s = .next (s.drive w (.value (zeroBits w (signField w a ^^^ signField w b)))))

/-- R3, R190, R149: the product of two nonzero finite values is the exact product correctly rounded, with the XOR of
the signs. -/
def Obligations.MulRoundsCorrectly : Prop :=
  ∀ (w : WidthPolicy) (a b : BitVec w.totalBits) (s : State),
    (kindOf w a).isFinite = true → (kindOf w b).isFinite = true →
    kindOf w a ≠ .zero → kindOf w b ≠ .zero →
    ∃ y, exec (.mul w a b) s = .next (s.drive w (.value y)) ∧
      RoundsTo w (signField w a ^^^ signField w b) (magnitude w a * magnitude w b) y

/-- R199 (a): MUL is commutative, bit for bit, unless both operands are NaN. -/
def Obligations.MulCommutes : Prop :=
  ∀ (w : WidthPolicy) (a b : BitVec w.totalBits) (s : State),
    ¬(kindOf w a = .nan ∧ kindOf w b = .nan) →
    exec (.mul w a b) s = exec (.mul w b a) s

/-- R190, R140 (derived in spec/96_test_vectors_arith.md section 5): `x * 1.0 = x` for every finite `x`. -/
def Obligations.MulByOneIsIdentity : Prop :=
  ∀ (w : WidthPolicy) (x : BitVec w.totalBits) (s : State), (kindOf w x).isFinite = true →
    exec (.mul w x (composeRaw w 0 w.bias 0)) s = .next (s.drive w (.value x))

/-! ### fp_divider -/

/-- R211 to R213: DIV's special rows. -/
def Obligations.DivSpecialRows : Prop :=
  ∀ (w : WidthPolicy) (a b : BitVec w.totalBits) (s : State),
    (kindOf w a = .nan → exec (.div w a b) s = .next (s.drive w (.value a))) ∧
    (kindOf w a ≠ .nan → kindOf w b = .nan → exec (.div w a b) s = .next (s.drive w (.value b))) ∧
    (kindOf w a = .infinity → kindOf w b = .infinity →
      exec (.div w a b) s = .next (s.drive w (.value (qnanBits w)))) ∧
    (kindOf w a = .infinity → (kindOf w b).isFinite = true →
      exec (.div w a b) s = .next (s.drive w (.value (infBits w (signField w a ^^^ signField w b))))) ∧
    ((kindOf w a).isFinite = true → kindOf w b = .infinity →
      exec (.div w a b) s = .next (s.drive w (.value (zeroBits w (signField w a ^^^ signField w b))))) ∧
    (kindOf w a = .zero → kindOf w b = .zero →
      exec (.div w a b) s = .next (s.drive w (.value (qnanBits w)))) ∧
    ((kindOf w a).isFinite = true → kindOf w a ≠ .zero → kindOf w b = .zero →
      exec (.div w a b) s = .next (s.drive w (.value (infBits w (signField w a ^^^ signField w b))))) ∧
    (kindOf w a = .zero → (kindOf w b).isFinite = true → kindOf w b ≠ .zero →
      exec (.div w a b) s = .next (s.drive w (.value (zeroBits w (signField w a ^^^ signField w b)))))

/-- R216: the restoring loop computes the floor of `(m1 << (MB + 2)) / m2` and its remainder, with a quotient of
`MB + 2` or `MB + 3` bits. -/
def Obligations.LongDivideClosedForm : Prop :=
  ∀ (w : WidthPolicy) (m1 m2 : Nat),
    w.hidden ≤ m1 → m1 < 2 ^ w.sigBits → w.hidden ≤ m2 → m2 < 2 ^ w.sigBits →
    (longDivide w m1 m2).quot = m1 <<< (w.manBits + 2) / m2 ∧
    (longDivide w m1 m2).rem = m1 <<< (w.manBits + 2) - (longDivide w m1 m2).quot * m2 ∧
    (longDivide w m1 m2).rem < m2 ∧
    2 ^ (w.manBits + 1) < (longDivide w m1 m2).quot ∧ (longDivide w m1 m2).quot < 2 ^ (w.manBits + 3) ∧
    bitLength (longDivide w m1 m2).quot = (if m1 < m2 then w.manBits + 2 else w.manBits + 3)

/-- R3, R210, R149: the quotient of two nonzero finite values is the exact quotient correctly rounded, with the XOR of
the signs. -/
def Obligations.DivRoundsCorrectly : Prop :=
  ∀ (w : WidthPolicy) (a b : BitVec w.totalBits) (s : State),
    (kindOf w a).isFinite = true → (kindOf w b).isFinite = true →
    kindOf w a ≠ .zero → kindOf w b ≠ .zero →
    ∃ y, exec (.div w a b) s = .next (s.drive w (.value y)) ∧
      RoundsTo w (signField w a ^^^ signField w b) (magnitude w a / magnitude w b) y

/-- R222 (c): `x / x = 1.0` and `x / 1.0 = x` for every finite nonzero `x`. -/
def Obligations.DivExactCases : Prop :=
  ∀ (w : WidthPolicy) (x : BitVec w.totalBits) (s : State),
    (kindOf w x).isFinite = true → kindOf w x ≠ .zero →
    exec (.div w x x) s = .next (s.drive w (.value (composeRaw w 0 w.bias 0))) ∧
    exec (.div w x (composeRaw w 0 w.bias 0)) s = .next (s.drive w (.value x))

/-- R164, R192, R212 (FPL's property, spec/95_test_vectors.md S6): a NaN operand of any of the four operators gives a result
that classifies as NaN. -/
def Obligations.NaNInNaNOut : Prop :=
  ∀ (w : WidthPolicy) (a b : BitVec w.totalBits) (s : State),
    kindOf w a = .nan ∨ kindOf w b = .nan →
    (∃ y, exec (.add w a b) s = .next (s.drive w (.value y)) ∧ kindOf w y = .nan) ∧
    (∃ y, exec (.sub w a b) s = .next (s.drive w (.value y)) ∧ kindOf w y = .nan) ∧
    (∃ y, exec (.mul w a b) s = .next (s.drive w (.value y)) ∧ kindOf w y = .nan) ∧
    (∃ y, exec (.div w a b) s = .next (s.drive w (.value y)) ∧ kindOf w y = .nan)

/-! ### value operations and reserved selects -/

/-- R240 to R243: XOR (`op = 4`) and AND (`op = 5`) bit by bit, FROMBITS (`op = 6`) and TOBITS (`op = 7`) the identity. -/
def Obligations.ValueOperationResults : Prop :=
  ∀ (w : WidthPolicy) (a b : BitVec w.totalBits) (s : State),
    (encode (.xorBits w a b)).op = 4#4 ∧ (encode (.andBits w a b)).op = 5#4 ∧
    (encode (.fromBits w a)).op = 6#4 ∧ (encode (.toBits w a)).op = 7#4 ∧
    (∃ y, exec (.xorBits w a b) s = .next (s.drive w (.value y)) ∧
      ∀ i, i < w.totalBits → y.getLsbD i = (a.getLsbD i ^^ b.getLsbD i)) ∧
    (∃ y, exec (.andBits w a b) s = .next (s.drive w (.value y)) ∧
      ∀ i, i < w.totalBits → y.getLsbD i = (a.getLsbD i && b.getLsbD i)) ∧
    exec (.fromBits w a) s = .next (s.drive w (.value a)) ∧
    exec (.toBits w a) s = .next (s.drive w (.value a))

/-- R261: a request with `op` 13, 14 or 15 raises `ILLEGAL_OP`, code 2, whatever its operand ports hold, and leaves `op` on
the requester's port; no other line raises it. -/
def Obligations.ReservedSelectsRaiseIllegalOp : Prop :=
  (∀ (w : WidthPolicy) (r : Request w) (s : State), 13 ≤ r.op.toNat →
    ∃ t, exec (decode w r) (s.present w r) = .next t ∧ t.outputs w = .fault .illegalOp ∧
      (t.outputs w).faultPort = 1 ∧ (t.outputs w).faultCodePort = 2 ∧ (t.inputs w).op = r.op) ∧
  (∀ (w : WidthPolicy) (i : Instr) (s : State), i = .reserved13 w ∨ i = .reserved14 w ∨ i = .reserved15 w →
    ∃ t, exec i s = .next t ∧ t.outputs w = .fault .illegalOp) ∧
  (∀ (i : Instr) (s t : State), exec i s = .next t → t.outputs i.policy = .fault .illegalOp →
    ∃ w, i = .reserved13 w ∨ i = .reserved14 w ∨ i = .reserved15 w)
end

