-- ==== Sys2Proof/Laws/State.lean ====
section
/-!
SUPPORT. One lemma per field per update of State, so that no later proof unfolds an update.
-/

namespace Sys2Proof.Machine

variable (s : State) (w w' : WidthPolicy)

@[simp] theorem State.inputs_binary32 : s.inputs .binary32 = s.in32 := rfl
@[simp] theorem State.inputs_binary64 : s.inputs .binary64 = s.in64 := rfl
@[simp] theorem State.outputs_binary32 : s.outputs .binary32 = s.out32 := rfl
@[simp] theorem State.outputs_binary64 : s.outputs .binary64 = s.out64 := rfl

/-- Two states are equal when every port, the selection and the mark are. -/
theorem State.eq_of_ports {s t : State} (hsel : s.sel = t.sel) (hin : ∀ w, s.inputs w = t.inputs w)
    (hout : ∀ w, s.outputs w = t.outputs w) (hmark : s.faultMark = t.faultMark) : s = t := by
  obtain ⟨_, _, _, _, _, _⟩ := s
  obtain ⟨_, _, _, _, _, _⟩ := t
  have h32 := hin .binary32
  have h64 := hin .binary64
  have o32 := hout .binary32
  have o64 := hout .binary64
  simp only [State.inputs, State.outputs] at *
  subst_vars
  rfl

/-! ### `drive` -/

@[simp] theorem State.drive_sel (r : Response w) : (s.drive w r).sel = s.sel := by cases w <;> rfl
@[simp] theorem State.drive_in32 (r : Response w) : (s.drive w r).in32 = s.in32 := by cases w <;> rfl
@[simp] theorem State.drive_in64 (r : Response w) : (s.drive w r).in64 = s.in64 := by cases w <;> rfl
@[simp] theorem State.drive_inputs (r : Response w) : (s.drive w r).inputs w' = s.inputs w' := by
  cases w <;> cases w' <;> rfl
@[simp] theorem State.drive_faultMark (r : Response w) : (s.drive w r).faultMark = s.faultMark := by
  cases w <;> rfl
@[simp] theorem State.drive_outputs (r : Response w) : (s.drive w r).outputs w = r := by cases w <;> rfl

theorem State.drive_outputs_other {w w' : WidthPolicy} (h : w' ≠ w) (r : Response w) :
    (s.drive w r).outputs w' = s.outputs w' := by
  cases w <;> cases w' <;> first | rfl | exact absurd rfl h

@[simp] theorem State.drive_drive (r r' : Response w) : (s.drive w r).drive w r' = s.drive w r' := by
  cases w <;> rfl

/-- Responses of different instances are driven independently of the order. -/
theorem State.drive_comm {w w' : WidthPolicy} (h : w ≠ w') (r : Response w) (r' : Response w') :
    (s.drive w r).drive w' r' = (s.drive w' r').drive w r := by
  cases w <;> cases w' <;> first | rfl | exact absurd rfl h

/-! ### `raiseFault` -/

@[simp] theorem State.raiseFault_sel (c : FaultCode) : (s.raiseFault w c).sel = s.sel := by cases w <;> rfl
@[simp] theorem State.raiseFault_in32 (c : FaultCode) : (s.raiseFault w c).in32 = s.in32 := by
  cases w <;> rfl
@[simp] theorem State.raiseFault_in64 (c : FaultCode) : (s.raiseFault w c).in64 = s.in64 := by
  cases w <;> rfl
@[simp] theorem State.raiseFault_inputs (c : FaultCode) :
    (s.raiseFault w c).inputs w' = s.inputs w' := by
  cases w <;> cases w' <;> rfl
@[simp] theorem State.raiseFault_outputs (c : FaultCode) :
    (s.raiseFault w c).outputs w = .fault c := by
  cases w <;> rfl
@[simp] theorem State.raiseFault_faultMark (c : FaultCode) :
    (s.raiseFault w c).faultMark = some (s.faultMark.getD c) := rfl

theorem State.raiseFault_outputs_other {w w' : WidthPolicy} (h : w' ≠ w) (c : FaultCode) :
    (s.raiseFault w c).outputs w' = s.outputs w' := by
  cases w <;> cases w' <;> first | rfl | exact absurd rfl h

/-! ### `driveInputs` -/

@[simp] theorem State.driveInputs_sel (r : Request w) : (s.driveInputs w r).sel = w := by cases w <;> rfl
@[simp] theorem State.driveInputs_inputs (r : Request w) : (s.driveInputs w r).inputs w = r := by cases w <;> rfl
@[simp] theorem State.driveInputs_out32 (r : Request w) : (s.driveInputs w r).out32 = s.out32 := by
  cases w <;> rfl
@[simp] theorem State.driveInputs_out64 (r : Request w) : (s.driveInputs w r).out64 = s.out64 := by
  cases w <;> rfl
@[simp] theorem State.driveInputs_outputs (r : Request w) :
    (s.driveInputs w r).outputs w' = s.outputs w' := by
  cases w <;> cases w' <;> rfl
@[simp] theorem State.driveInputs_faultMark (r : Request w) : (s.driveInputs w r).faultMark = s.faultMark := by
  cases w <;> rfl

theorem State.driveInputs_inputs_other {w w' : WidthPolicy} (h : w' ≠ w) (r : Request w) :
    (s.driveInputs w r).inputs w' = s.inputs w' := by
  cases w <;> cases w' <;> first | rfl | exact absurd rfl h

/-! ### `reset` -/

@[simp] theorem State.reset_sel : State.reset.sel = .binary32 := rfl
@[simp] theorem State.reset_inputs : State.reset.inputs w = Request.zeros w := by cases w <;> rfl
@[simp] theorem State.reset_outputs : State.reset.outputs w = .value 0 := by cases w <;> rfl
@[simp] theorem State.reset_faultMark : State.reset.faultMark = none := rfl

end Sys2Proof.Machine
end

