-- ==== Sys2Proof/Laws/Ops.lean ====
section
/-!
SUPPORT. What the shared operations of Machine/Ops.lean can do, said once each.
-/

namespace Sys2Proof.Machine

/-! ### answering a transaction -/

@[simp] theorem respond_ok (w : WidthPolicy) (r : Response w) (s : State) :
    respond w (.ok r) s = .next (s.drive w r) := rfl

@[simp] theorem respond_error (w : WidthPolicy) (c : FaultCode) (s : State) :
    respond w (.error c) s = .next (s.raiseFault w c) := rfl

@[simp] theorem onY_ok (w : WidthPolicy) (y : BitVec w.totalBits) :
    onY (.ok y) = .ok (Response.value y) := rfl

@[simp] theorem onY_error (w : WidthPolicy) (c : FaultCode) :
    onY (w := w) (.error c) = .error c := rfl

@[simp] theorem shownBy_ok (w : WidthPolicy) (r : Response w) : shownBy (.ok r) = r := rfl

@[simp] theorem shownBy_error (w : WidthPolicy) (c : FaultCode) :
    shownBy (w := w) (.error c) = .fault c := rfl

/-- Whatever a transaction answers, its instance shows it and its input ports stay. -/
theorem respond_shows (w : WidthPolicy) (r : Except FaultCode (Response w)) (s : State) :
    ∃ t, respond w r s = .next t ∧ t.outputs w = shownBy r ∧ t.sel = s.sel ∧
      (∀ w', t.inputs w' = s.inputs w') ∧ (∀ w', w' ≠ w → t.outputs w' = s.outputs w') := by
  cases r with
  | ok o => exact ⟨_, rfl, by simp, by simp, by simp, fun _ h => State.drive_outputs_other s h o⟩
  | error c => exact ⟨_, rfl, by simp, by simp, by simp, fun _ h => State.raiseFault_outputs_other s h c⟩

/-- A transaction is always answered: by a response that is driven, or by a fault that is raised. -/
theorem respond_answers (w : WidthPolicy) (r : Except FaultCode (Response w)) (s : State) :
    (∃ o, r = .ok o ∧ respond w r s = .next (s.drive w o)) ∨
    (∃ c, r = .error c ∧ respond w r s = .next (s.raiseFault w c)) := by
  cases r with
  | ok o => exact .inl ⟨o, rfl, rfl⟩
  | error c => exact .inr ⟨c, rfl, rfl⟩

/-! ### `bitLength` -/

@[simp] theorem bitLength_zero : bitLength 0 = 0 := rfl

theorem bitLength_pos {x : Nat} (h : x ≠ 0) : 0 < bitLength x := by simp [bitLength, h]

theorem lt_two_pow_bitLength (x : Nat) : x < 2 ^ bitLength x := by
  by_cases h : x = 0
  · simp [bitLength, h]
  · simpa [bitLength, h] using Nat.lt_log2_self (n := x)

theorem two_pow_bitLength_le {x : Nat} (h : x ≠ 0) : 2 ^ (bitLength x - 1) ≤ x := by
  simpa [bitLength, h] using Nat.log2_self_le h

theorem bitLength_le_iff {x k : Nat} : bitLength x ≤ k ↔ x < 2 ^ k := by
  by_cases h : x = 0
  · simp [h]
  · simp only [bitLength, h, if_false, Nat.succ_le_iff]
    exact Nat.log2_lt h

/-- `bitLength x = k + 1` exactly when the leading bit is bit `k`. -/
theorem bitLength_eq_succ_iff {x k : Nat} : bitLength x = k + 1 ↔ 2 ^ k ≤ x ∧ x < 2 ^ (k + 1) := by
  have hlo := bitLength_le_iff (x := x) (k := k)
  have hhi := bitLength_le_iff (x := x) (k := k + 1)
  omega

/-! ### `jamShift` -/

@[simp] theorem jamShift_by_zero (X : Nat) : jamShift X 0 = X := rfl

@[simp] theorem jamShift_of_zero (k : Nat) : jamShift 0 k = 0 := by
  unfold jamShift; split <;> simp

/-- A shift that loses nothing only shifts. -/
theorem jamShift_exact {X k : Nat} (h : X % 2 ^ k = 0) : jamShift X k = X / 2 ^ k := by
  unfold jamShift
  split
  · next h0 => simp [h0]
  · simp [h, Nat.shiftRight_eq_div_pow]

/-- Above bit 0 a jammed shift is a plain shift. -/
theorem jamShift_div_two (X k : Nat) (hk : k ≠ 0) : jamShift X k / 2 = X / 2 ^ (k + 1) := by
  simp only [jamShift, hk, if_false]
  rw [← Nat.shiftRight_one, Nat.shiftRight_or_distrib, ← Nat.shiftRight_add]
  split <;> simp [Nat.shiftRight_eq_div_pow]

/-- A nonzero mantissa never jams to zero. -/
theorem jamShift_ne_zero {X : Nat} (h : X ≠ 0) (k : Nat) : jamShift X k ≠ 0 := by
  unfold jamShift
  split
  · exact h
  · split
    · intro hz
      have := Nat.or_eq_zero_iff.mp hz
      omega
    · next hmod =>
      simp only [ne_eq, not_not] at hmod
      simp only [Nat.shiftRight_eq_div_pow, Nat.or_zero]
      have hd : 2 ^ k ∣ X := Nat.dvd_of_mod_eq_zero hmod
      exact Nat.div_ne_zero_iff.mpr ⟨by positivity, Nat.le_of_dvd (Nat.pos_of_ne_zero h) hd⟩

end Sys2Proof.Machine
end

