-- ==== Sys2Proof/Laws/Answer.lean ====
section
/-!
SUPPORT. What a line does to the state, said once for every line, and what presenting a request does.
-/

namespace Sys2Proof.Machine

/-- Every line's meaning is its response, driven or raised on its own instance. -/
theorem exec_eq_respond (i : Instr) (s : State) : exec i s = respond i.policy (answer i) s := by
  cases i <;> rfl

/-- All that a line changes: its own instance shows its response; the selection, every input port and the other
instance's outputs stay. -/
theorem exec_shows {i : Instr} {s t : State} (h : exec i s = .next t) :
    t.outputs i.policy = shownBy (answer i) ∧ t.sel = s.sel ∧ (∀ w, t.inputs w = s.inputs w) ∧
      (∀ w, w ≠ i.policy → t.outputs w = s.outputs w) := by
  obtain ⟨t', h', facts⟩ := respond_shows i.policy (answer i) s
  rw [exec_eq_respond, h'] at h
  cases h
  exact facts

/-- A request decodes to a line for its own instance. -/
@[simp] theorem decode_policy (w : WidthPolicy) (r : Request w) : (decode w r).policy = w := by
  unfold decode; split <;> rfl

variable (s : State)

/-! ### `showAnswer` -/

@[simp] theorem State.showAnswer_sel (i : Instr) : (s.showAnswer i).sel = s.sel := by simp [showAnswer]
@[simp] theorem State.showAnswer_in32 (i : Instr) : (s.showAnswer i).in32 = s.in32 := by simp [showAnswer]
@[simp] theorem State.showAnswer_in64 (i : Instr) : (s.showAnswer i).in64 = s.in64 := by simp [showAnswer]
@[simp] theorem State.showAnswer_inputs (i : Instr) (w : WidthPolicy) :
    (s.showAnswer i).inputs w = s.inputs w := by simp [showAnswer]
@[simp] theorem State.showAnswer_faultMark (i : Instr) : (s.showAnswer i).faultMark = s.faultMark := by
  simp [showAnswer]
@[simp] theorem State.showAnswer_outputs (i : Instr) :
    (s.showAnswer i).outputs i.policy = shownBy (answer i) := by simp [showAnswer]

theorem State.showAnswer_outputs_other {i : Instr} {w : WidthPolicy} (h : w ≠ i.policy) :
    (s.showAnswer i).outputs w = s.outputs w := State.drive_outputs_other s h _

/-! ### `settle` -/

@[simp] theorem State.settle_sel : s.settle.sel = s.sel := by simp [settle]
@[simp] theorem State.settle_in32 : s.settle.in32 = s.in32 := by simp [settle]
@[simp] theorem State.settle_in64 : s.settle.in64 = s.in64 := by simp [settle]
@[simp] theorem State.settle_inputs (w : WidthPolicy) : s.settle.inputs w = s.inputs w := by simp [settle]
@[simp] theorem State.settle_faultMark : s.settle.faultMark = s.faultMark := by simp [settle]

/-- A settled instance shows the answer to the line on its input ports. -/
theorem State.settle_outputs {i : Instr} (h : decode i.policy (s.inputs i.policy) = i) :
    s.settle.outputs i.policy = shownBy (answer i) := by
  suffices hs : ∀ w j, decode w (s.inputs w) = j → s.settle.outputs j.policy = shownBy (answer j) from
    hs i.policy i h
  rintro (_ | _) j rfl
  · exact (showAnswer_outputs_other _ (by simp)).trans (showAnswer_outputs s _)
  · exact showAnswer_outputs _ _

/-- What an instance shows depends on its own inputs alone. -/
theorem State.settle_outputs_congr {s s' : State} {w : WidthPolicy} (h : s.inputs w = s'.inputs w) :
    s.settle.outputs w = s'.settle.outputs w := by
  have hp : (decode w (s.inputs w)).policy = w := decode_policy w _
  have h1 := s.settle_outputs (i := decode w (s.inputs w)) (by rw [hp])
  have h2 := s'.settle_outputs (i := decode w (s.inputs w)) (by rw [hp, h])
  exact hp ▸ h1.trans h2.symm

/-- Settling twice is settling once. -/
@[simp] theorem State.settle_settle : s.settle.settle = s.settle := by
  have h (w : WidthPolicy) : s.settle.settle.outputs w = s.settle.outputs w :=
    State.settle_outputs_congr (by simp)
  exact State.eq_of_ports (by simp) (by simp) h (by simp)

/-! ### `present` -/

@[simp] theorem State.present_sel (w : WidthPolicy) (r : Request w) : (s.present w r).sel = w := by
  simp [present]
@[simp] theorem State.present_inputs (w : WidthPolicy) (r : Request w) : (s.present w r).inputs w = r := by
  simp [present]
@[simp] theorem State.present_faultMark (w : WidthPolicy) (r : Request w) :
    (s.present w r).faultMark = s.faultMark := by simp [present]

@[simp] theorem State.present_settle (w : WidthPolicy) (r : Request w) :
    (s.present w r).settle = s.present w r := by simp [present]

theorem State.present_inputs_other {w w' : WidthPolicy} (h : w' ≠ w) (r : Request w) :
    (s.present w r).inputs w' = s.inputs w' := by
  rw [present, settle_inputs, driveInputs_inputs_other s h r]

end Sys2Proof.Machine
end

