-- ==== Sys2Proof/Laws/Engines.lean ====
section
/-!
SUPPORT. The shared engines: when the rounding engine answers, and that the normalize-round-pack stage
never asks it for a shift out of range (spec/43_normalize_round_pack.md R145).
-/

namespace Sys2Proof.Machine

/-! ### the rounding engine -/

theorem roundShift_out_of_range {w : WidthPolicy} {n : Nat} (h : w.manBits + 1 < n) (X : Nat) :
    roundShift w X n = .error .rsShiftRange := by simp [roundShift, h]

@[simp] theorem roundShift_by_zero (w : WidthPolicy) (X : Nat) : roundShift w X 0 = .ok (X, true) := by
  simp [roundShift]

theorem roundShift_in_range {w : WidthPolicy} {n : Nat} (h0 : n ≠ 0) (h : n ≤ w.manBits + 1) (X : Nat) :
    roundShift w X n = .ok (roundedShift X n, exactShift X n) := by
  simp [roundShift, h0, Nat.not_lt.mpr h]

/-- The rounded shift is the truncated value or one more. -/
theorem roundedShift_cases (X n : Nat) :
    roundedShift X n = X / 2 ^ n ∨ roundedShift X n = X / 2 ^ n + 1 := by
  simp only [roundedShift, Nat.shiftRight_eq_div_pow]
  split_ifs <;> simp

/-! ### the stages of `nrp` -/

/-- After line N4 the rounding shift is inside the engine's range. -/
theorem nrpJam_shift_le (w : WidthPolicy) (v : Scaled) : (nrpJam w v).shift ≤ w.sigBits := by
  unfold nrpJam
  split
  · exact le_refl _
  · omega

@[simp] theorem nrpJam_exp (w : WidthPolicy) (v : Scaled) : (nrpJam w v).exp = v.exp := by
  unfold nrpJam; split <;> rfl

/-- After line N3 the exponent is at least the minimum. -/
theorem nrpDenormalize_exp (w : WidthPolicy) (v : Scaled) :
    (nrpDenormalize w v).exp = max v.exp w.minExp := by
  unfold nrpDenormalize
  split
  · simp only; omega
  · omega

/-- `nrp` always returns: it cannot raise `RS_SHIFT_RANGE`. -/
theorem nrp_returns (w : WidthPolicy) (s : Sign) (e : Int) (X g : Nat) :
    ∃ y, nrp w s e X g = .ok y := by
  have hle := nrpJam_shift_le w (nrpDenormalize w (nrpNormalize w e X g))
  by_cases h0 : (nrpJam w (nrpDenormalize w (nrpNormalize w e X g))).shift = 0
  · exact ⟨_, by simp only [nrp, h0, roundShift_by_zero, Except.map]; rfl⟩
  · exact ⟨_, by simp only [nrp, roundShift_in_range h0 hle, Except.map]; rfl⟩

/-! ### the engines return -/

theorem addOrdered_returns (w : WidthPolicy) (u1 u2 : Unpacked) : ∃ y, addOrdered w u1 u2 = .ok y := by
  simp only [addOrdered]
  split
  · exact ⟨_, rfl⟩
  · exact nrp_returns _ _ _ _ _

theorem addComputed_returns (w : WidthPolicy) (a b : BitVec w.totalBits) :
    ∃ y, addComputed w a b = .ok y := by
  simp only [addComputed]
  split <;> exact addOrdered_returns _ _ _

theorem mulComputed_returns (w : WidthPolicy) (s : Sign) (a b : BitVec w.totalBits) :
    ∃ y, mulComputed w s a b = .ok y := nrp_returns _ _ _ _ _

theorem divComputed_returns (w : WidthPolicy) (s : Sign) (a b : BitVec w.totalBits) :
    ∃ y, divComputed w s a b = .ok y := nrp_returns _ _ _ _ _

/-! ### the divider's loop -/

@[simp] theorem longDivideFrom_zero (m2 : Nat) (v : QuotRem) :
    longDivideFrom m2 0 v = trialSubtract m2 0 v := rfl

theorem longDivideFrom_succ (m2 i : Nat) (v : QuotRem) :
    longDivideFrom m2 (i + 1) v =
      longDivideFrom m2 i
        { quot := (trialSubtract m2 (i + 1) v).quot
          rem := (trialSubtract m2 (i + 1) v).rem <<< 1 } := rfl

/-- One trial subtraction from a remainder below twice the divisor leaves one below the divisor. -/
theorem trialSubtract_rem_lt {m2 : Nat} {v : QuotRem} (h : v.rem < 2 * m2) (i : Nat) :
    (trialSubtract m2 i v).rem < m2 := by
  unfold trialSubtract
  split
  · simp only; omega
  · omega

end Sys2Proof.Machine
end

