-- ==== Sys2Proof/Laws/Operands.lean ====
section
/-!
SUPPORT. The fields of a bit pattern and its packing, as numbers; the constants of the two policies.
-/

namespace Sys2Proof.Machine

/-! ### the constants of the two policies (spec/00_scope.md R8, R9) -/

@[simp] theorem bias_binary32 : WidthPolicy.bias .binary32 = 127 := rfl
@[simp] theorem bias_binary64 : WidthPolicy.bias .binary64 = 1023 := rfl
@[simp] theorem maxBiasedExp_binary32 : WidthPolicy.maxBiasedExp .binary32 = 255 := rfl
@[simp] theorem maxBiasedExp_binary64 : WidthPolicy.maxBiasedExp .binary64 = 2047 := rfl
@[simp] theorem minExp_binary32 : WidthPolicy.minExp .binary32 = -126 := rfl
@[simp] theorem minExp_binary64 : WidthPolicy.minExp .binary64 = -1022 := rfl
@[simp] theorem maxExp_binary32 : WidthPolicy.maxExp .binary32 = 127 := rfl
@[simp] theorem maxExp_binary64 : WidthPolicy.maxExp .binary64 = 1023 := rfl

theorem hidden_eq (w : WidthPolicy) : w.hidden = 2 ^ w.manBits := by
  simp [WidthPolicy.hidden, Nat.shiftLeft_eq]

theorem manMask_eq (w : WidthPolicy) : w.manMask = 2 ^ w.manBits - 1 := by
  simp [WidthPolicy.manMask, Nat.shiftLeft_eq]

theorem maxBiasedExp_succ (w : WidthPolicy) : w.maxBiasedExp + 1 = 2 ^ w.expBits := by
  cases w <;> rfl

/-! ### the fields (spec/30_encoding.md R60) -/

theorem signField_toNat (w : WidthPolicy) (x : BitVec w.totalBits) :
    (signField w x).toNat = x.toNat / 2 ^ (w.totalBits - 1) := by
  have hx := x.isLt
  simp only [signField, BitVec.extractLsb'_toNat, Nat.shiftRight_eq_div_pow, pow_one]
  have hN : 2 ^ (w.totalBits - 1) * 2 = 2 ^ w.totalBits := by cases w <;> rfl
  exact Nat.mod_eq_of_lt (Nat.div_lt_of_lt_mul (by omega))

theorem expField_toNat (w : WidthPolicy) (x : BitVec w.totalBits) :
    (expField w x).toNat = x.toNat / 2 ^ w.manBits % 2 ^ w.expBits := by
  simp [expField, Nat.shiftRight_eq_div_pow]

theorem manField_toNat (w : WidthPolicy) (x : BitVec w.totalBits) :
    (manField w x).toNat = x.toNat % 2 ^ w.manBits := by
  simp [manField]

theorem manField_lt (w : WidthPolicy) (x : BitVec w.totalBits) :
    (manField w x).toNat < 2 ^ w.manBits := (manField w x).isLt

theorem expField_le (w : WidthPolicy) (x : BitVec w.totalBits) :
    (expField w x).toNat ≤ w.maxBiasedExp := by
  have h := (expField w x).isLt
  rw [← maxBiasedExp_succ] at h
  omega

/-- The implicit bit does not overlap the stored mantissa: OR is addition. -/
theorem hidden_or_manField (w : WidthPolicy) (x : BitVec w.totalBits) :
    w.hidden ||| (manField w x).toNat = 2 ^ w.manBits + (manField w x).toNat := by
  rw [hidden_eq]
  have := Nat.two_pow_add_eq_or_of_lt (manField_lt w x) 1
  simpa using this.symm

/-- The packed pattern as a number, over-wide fields truncated (spec/40_bit_unpacker.md R91). -/
theorem composeRaw_toNat (w : WidthPolicy) (sign : Sign) (be sm : Nat) :
    (composeRaw w sign be sm).toNat =
      sign.toNat * 2 ^ (w.totalBits - 1) + be % 2 ^ w.expBits * 2 ^ w.manBits
        + sm % 2 ^ w.manBits := by
  have he : be % 2 ^ w.expBits < 2 ^ w.expBits := Nat.mod_lt _ (by positivity)
  have hm : sm % 2 ^ w.manBits < 2 ^ w.manBits := Nat.mod_lt _ (by positivity)
  simp only [composeRaw, BitVec.toNat_cast, BitVec.toNat_append, BitVec.toNat_ofNat]
  rw [← Nat.shiftLeft_add_eq_or_of_lt hm, ← Nat.shiftLeft_add_eq_or_of_lt he]
  simp only [Nat.shiftLeft_eq]
  have hN : w.totalBits - 1 = w.expBits + w.manBits := by cases w <;> rfl
  rw [hN, pow_add]
  ring

end Sys2Proof.Machine
end

