-- ==== Sys2Proof/Laws/PerInstr.lean ====
section
/-!
SUPPORT. Laws of the instructions as syntax, one lemma per constructor.
-/

namespace Sys2Proof.Laws.EncodedSelect

/-- A line is encoded with a select below 13 exactly when it selects an operation (spec/30_encoding.md R69, R70). -/
def Statement (i : Instr) : Prop := (encode i).op.toNat < 13 ↔ i.selectsOperation = true

theorem add (w : WidthPolicy) (a b : BitVec w.totalBits) :
    Statement (.add w a b) := by
  simp [Statement, encode, Instr.selectsOperation]

theorem sub (w : WidthPolicy) (a b : BitVec w.totalBits) :
    Statement (.sub w a b) := by
  simp [Statement, encode, Instr.selectsOperation]

theorem mul (w : WidthPolicy) (a b : BitVec w.totalBits) :
    Statement (.mul w a b) := by
  simp [Statement, encode, Instr.selectsOperation]

theorem div (w : WidthPolicy) (a b : BitVec w.totalBits) :
    Statement (.div w a b) := by
  simp [Statement, encode, Instr.selectsOperation]

theorem xorBits (w : WidthPolicy) (a b : BitVec w.totalBits) :
    Statement (.xorBits w a b) := by
  simp [Statement, encode, Instr.selectsOperation]

theorem andBits (w : WidthPolicy) (a b : BitVec w.totalBits) :
    Statement (.andBits w a b) := by
  simp [Statement, encode, Instr.selectsOperation]

theorem fromBits (w : WidthPolicy) (a : BitVec w.totalBits) :
    Statement (.fromBits w a) := by
  simp [Statement, encode, Instr.selectsOperation]

theorem toBits (w : WidthPolicy) (a : BitVec w.totalBits) :
    Statement (.toBits w a) := by
  simp [Statement, encode, Instr.selectsOperation]

theorem decompose (w : WidthPolicy) (a : BitVec w.totalBits) :
    Statement (.decompose w a) := by
  simp [Statement, encode, Instr.selectsOperation]

theorem compose (w : WidthPolicy) (sign : Sign) (exp man : BitVec w.totalBits) :
    Statement (.compose w sign exp man) := by
  simp [Statement, encode, Instr.selectsOperation]

theorem classify (w : WidthPolicy) (a : BitVec w.totalBits) :
    Statement (.classify w a) := by
  simp [Statement, encode, Instr.selectsOperation]

theorem roundShift (w : WidthPolicy) (man : BitVec w.extBits) (n : ShiftAmount) :
    Statement (.roundShift w man n) := by
  simp [Statement, encode, Instr.selectsOperation]

theorem flipSign (w : WidthPolicy) (a : BitVec w.totalBits) :
    Statement (.flipSign w a) := by
  simp [Statement, encode, Instr.selectsOperation]

theorem reserved13 (w : WidthPolicy) :
    Statement (.reserved13 w) := by
  simp [Statement, encode, Instr.selectsOperation]

theorem reserved14 (w : WidthPolicy) :
    Statement (.reserved14 w) := by
  simp [Statement, encode, Instr.selectsOperation]

theorem reserved15 (w : WidthPolicy) :
    Statement (.reserved15 w) := by
  simp [Statement, encode, Instr.selectsOperation]

end Sys2Proof.Laws.EncodedSelect
end

