-- ==== Sys2Proof/Tests/Slice0.lean ====
section
/-!
SUPPORT. The sitting's own tests: words and vectors of spec/95_test_vectors.md and
spec/96_test_vectors_arith.md, ill-formed lines, and for every statement with hypotheses a witness that meets them.
-/

namespace Sys2Proof.Tests

open Sys2Proof.Machine

/-- The Binary32 instance shows `r` after a next state. -/
def shows32 (o : Host.Outcome State Fault Refusal) (r : Response .binary32) : Bool :=
  match o with
  | .next t => decide (t.out32 = r)
  | .fault _ => false
  | .refused _ => false

/-- The Binary64 instance shows `r` after a next state. -/
def shows64 (o : Host.Outcome State Fault Refusal) (r : Response .binary64) : Bool :=
  match o with
  | .next t => decide (t.out64 = r)
  | .fault _ => false
  | .refused _ => false

/-- The run is over with the fault. -/
def stopsWith (o : Host.Outcome State Fault Refusal) (f : Fault) : Bool :=
  match o with
  | .next _ => false
  | .fault g => decide (g = f)
  | .refused _ => false

/-- ADD, SUB, … on the Binary32 instance right after reset: one step on the line issued. -/
def run32 (i : Instr) (r : Response .binary32) : Bool := shows32 (step (State.reset.issue i)) r

/-- The same on the Binary64 instance. -/
def run64 (i : Instr) (r : Response .binary64) : Bool := shows64 (step (State.reset.issue i)) r

/-! ### WellFormed: an ill-formed line for each check -/

theorem test_wf_accepts_add : WellFormed (.add .binary32 0x3F800000 0x40000000) = true := by decide
theorem test_wf_refuses_reserved : WellFormed (.reserved13 .binary32) = false := by decide
theorem test_wf_refuses_wide_exponent : WellFormed (.compose .binary32 0 0x100 0) = false := by decide
theorem test_wf_refuses_wide_mantissa : WellFormed (.compose .binary64 0 0x3FF 0x10000000000000) = false := by
  decide
theorem test_wf_accepts_compose_limits : WellFormed (.compose .binary32 1 0xFF 0x7FFFFF) = true := by decide
theorem test_wf_refuses_long_shift : WellFormed (.roundShift .binary32 0 25) = false := by decide
theorem test_wf_accepts_longest_shift : WellFormed (.roundShift .binary64 0 53) = true := by decide

/-! ### decoding: every select of spec/30_encoding.md R69, R70, with the ports of its format (R68) -/

/-- A request with every port at a different value. -/
def busy (op : OpSelect) : Request .binary32 :=
  { op := op, a := 0xC0490FDB, b := 0x3F800000, cSign := 1, cExp := 0x1FF, cMan := 0x7FFFFF
    rMan := 0x123456789, rN := 24 }

theorem test_decode_add : decode .binary32 (busy 0b0000) = .add .binary32 0xC0490FDB 0x3F800000 := by decide
theorem test_decode_sub : decode .binary32 (busy 0b0001) = .sub .binary32 0xC0490FDB 0x3F800000 := by decide
theorem test_decode_mul : decode .binary32 (busy 0b0010) = .mul .binary32 0xC0490FDB 0x3F800000 := by decide
theorem test_decode_div : decode .binary32 (busy 0b0011) = .div .binary32 0xC0490FDB 0x3F800000 := by decide
theorem test_decode_xor : decode .binary32 (busy 0b0100) = .xorBits .binary32 0xC0490FDB 0x3F800000 := by
  decide
theorem test_decode_and : decode .binary32 (busy 0b0101) = .andBits .binary32 0xC0490FDB 0x3F800000 := by
  decide
theorem test_decode_frombits : decode .binary32 (busy 0b0110) = .fromBits .binary32 0xC0490FDB := by decide
theorem test_decode_tobits : decode .binary32 (busy 0b0111) = .toBits .binary32 0xC0490FDB := by decide
theorem test_decode_decompose : decode .binary32 (busy 0b1000) = .decompose .binary32 0xC0490FDB := by decide
theorem test_decode_compose : decode .binary32 (busy 0b1001) = .compose .binary32 1 0x1FF 0x7FFFFF := by decide
theorem test_decode_classify : decode .binary32 (busy 0b1010) = .classify .binary32 0xC0490FDB := by decide
theorem test_decode_roundshift : decode .binary32 (busy 0b1011) = .roundShift .binary32 0x123456789 24 := by
  decide
theorem test_decode_flipsign : decode .binary32 (busy 0b1100) = .flipSign .binary32 0xC0490FDB := by decide
theorem test_decode_reserved13 : decode .binary32 (busy 0b1101) = .reserved13 .binary32 := by decide
theorem test_decode_reserved14 : decode .binary32 (busy 0b1110) = .reserved14 .binary32 := by decide
theorem test_decode_reserved15 : decode .binary32 (busy 0b1111) = .reserved15 .binary32 := by decide
theorem test_word_too_wide : decodeTableWord 8 0x10 = none := by decide
theorem test_word_too_short : decodeTableWord 3 0x1 = none := by decide
theorem test_encode_roundshift : encode (.roundShift .binary64 0xB 2) =
    { Request.zeros .binary64 with op := 11, rMan := 0xB, rN := 2 } := by decide

/-! ### one step per instruction (vectors of the spec) -/

theorem test_add_rounds_tie_up : run32 (.add .binary32 0x3F800001 0x33800000) (.value 0x3F800002) = true := by
  decide +kernel
theorem test_add_far_subtraction : run64 (.add .binary64 0x3FF0000000000000 0xBCA0000000000001)
    (.value 0x3FEFFFFFFFFFFFFF) = true := by decide +kernel
theorem test_sub_cancels_deep : run64 (.sub .binary64 0x3FD3333333333334 0x3FD3333333333333)
    (.value 0x3C90000000000000) = true := by decide +kernel
theorem test_sub_flips_right_nan : run32 (.sub .binary32 0x3F800000 0x7FC00000) (.value 0xFFC00000) = true := by
  decide +kernel
theorem test_mul_carry_overflow : run32 (.mul .binary32 0x7EFFFFFE 0x40000001) (.value 0x7F800000) = true := by
  decide +kernel
theorem test_mul_subnormal_tie : run64 (.mul .binary64 0x0000000000000003 0x3FE0000000000000)
    (.value 0x0000000000000002) = true := by decide +kernel
theorem test_div_one_third : run32 (.div .binary32 0x3F800000 0x40400000) (.value 0x3EAAAAAB) = true := by
  decide +kernel
theorem test_div_below_minimum : run64 (.div .binary64 0x3FF0000000000000 0x7FEFFFFFFFFFFFFF)
    (.value 0x0004000000000000) = true := by decide +kernel
theorem test_xor_mask : run32 (.xorBits .binary32 0x12345678 0xFFFF0000) (.value 0xEDCB5678) = true := by
  decide +kernel
theorem test_and_mask : run32 (.andBits .binary32 0x12345678 0xFFFF0000) (.value 0x12340000) = true := by
  decide +kernel
theorem test_frombits : run32 (.fromBits .binary32 0x7FA00000) (.value 0x7FA00000) = true := by decide +kernel
theorem test_tobits : run64 (.toBits .binary64 0x8000000000000001) (.value 0x8000000000000001) = true := by
  decide +kernel
theorem test_decompose : run32 (.decompose .binary32 0xC0490FDB)
    (.unpacked { sign := 1, biasedExponent := 0x80, storedMantissa := 0x490FDB }) = true := by decide +kernel
theorem test_compose_truncates : run32 (.compose .binary32 0 0x17F 0xC00000) (.value 0x3FC00000) = true := by
  decide +kernel
theorem test_classify_nan32 : run32 (.classify .binary32 0x7FF00000)
    (.classified .nan { sign := 0, biasedExponent := 0xFF, storedMantissa := 0x700000 }) = true := by
  decide +kernel
theorem test_classify_subnormal64 : run64 (.classify .binary64 0x000000007FF00000)
    (.classified .subnormal { sign := 0, biasedExponent := 0, storedMantissa := 0x000007FF00000 }) = true := by
  decide +kernel
theorem test_roundshift_carry : run32 (.roundShift .binary32 0xFFFFFFFFFFFF 24)
    (.shifted 0x1000000 false) = true := by decide +kernel
theorem test_roundshift_out_of_range : run32 (.roundShift .binary32 0 25) (.fault .rsShiftRange) = true := by
  decide +kernel
theorem test_flipsign_nan : run32 (.flipSign .binary32 0x7FC00001) (.value 0xFFC00001) = true := by
  decide +kernel
theorem test_reserved13 : run32 (.reserved13 .binary32) (.fault .illegalOp) = true := by decide +kernel
theorem test_reserved14 : run32 (.reserved14 .binary32) (.fault .illegalOp) = true := by decide +kernel
theorem test_reserved15 : run64 (.reserved15 .binary64) (.fault .illegalOp) = true := by decide +kernel

/-- Program P4 of spec/95_test_vectors.md: the run stops at its second request. -/
theorem test_run_stops_at_fault : stopsWith (runLines
    [.roundShift .binary32 0x123456789 24, .roundShift .binary32 0x123456789 25,
     .add .binary32 0x3F800000 0x3F800000] State.reset) (.runEnded .rsShiftRange) = true := by decide +kernel

/-- The `1 / 3` row of spec/96_test_vectors_arith.md 4.1: quotient and remainder of the loop. -/
theorem test_long_divide : longDivide .binary32 0x800000 0xC00000 = { quot := 0x1555555, rem := 0x400000 } := by
  decide +kernel

/-- spec/95_test_vectors.md 3.3. -/
theorem test_prenormalize : prenormalize .binary32 (unpackFinite .binary32 0x007FFFFF) =
    { sign := 0, man := 0xFFFFFE, exp := -127 } := by decide +kernel

/-- The first step after reset of a placed word: `op = 12` with operand 0 flips the sign of `+0`. -/
theorem test_fetch_word : shows32 (step (State.reset.withFetchWord 8 0xC)) (.value 0x80000000) = true := by
  decide +kernel

/-! ### witnesses: values that meet the hypotheses of each statement, every clause -/

theorem witness_DecodeInvertsEncode : ∃ i : Instr, ∃ r : Request i.policy,
    r ≠ encode i ∧ r.op = (encode i).op ∧ Request.agreeOn (formatOf r.op) r (encode i) :=
  ⟨.flipSign .binary32 0xC0490FDB, busy 12,
    fun h => absurd (congrArg (fun r : Request .binary32 => r.b) h) (by decide), by decide, rfl⟩

theorem witness_StepRunsTheDecodedLine : State.reset.faultMark = none ∧
    (State.reset.raiseFault .binary32 .illegalOp).faultMark = some .illegalOp := ⟨rfl, rfl⟩

theorem witness_FaultOutputsOfEveryLine :
    (∃ t, exec (.reserved13 .binary32) State.reset = .next t) ∧
    (∃ t, exec (.roundShift .binary32 0 24) State.reset = .next t) ∧
    (∃ t, exec (.roundShift .binary32 0 25) State.reset = .next t) ∧
    (∃ t, exec (.toBits .binary64 7) State.reset = .next t) :=
  ⟨⟨_, rfl⟩, ⟨_, rfl⟩, ⟨_, rfl⟩, ⟨_, rfl⟩⟩

theorem witness_FrameOfEveryLine : ∃ t, exec (.xorBits .binary64 1 3) State.reset = .next t := ⟨_, rfl⟩

theorem witness_SameLineSameResponse : State.reset ≠ State.reset.raiseFault .binary64 .illegalOp ∧
    (∃ t, exec (.toBits .binary32 5) State.reset = .next t) ∧
    (∃ t, exec (.toBits .binary32 5) (State.reset.raiseFault .binary64 .illegalOp) = .next t) :=
  ⟨by decide, ⟨_, rfl⟩, ⟨_, rfl⟩⟩

theorem witness_OnlyNamedPortsMatter : busy 12 ≠ { busy 12 with b := 0 } ∧
    Request.agreeOn (formatOf (busy 12).op) (busy 12) { busy 12 with b := 0 } ∧
    (∃ t, step (State.reset.present .binary32 (busy 12)) = .next t) ∧
    (∃ t, step (State.reset.present .binary32 { busy 12 with b := 0 }) = .next t) :=
  ⟨by decide, rfl, ⟨_, rfl⟩, ⟨_, rfl⟩⟩

theorem witness_InstancesDoNotInterfere :
    (Instr.toBits .binary32 5).policy ≠ (Instr.toBits .binary64 6).policy ∧
    ∃ s1 s2 t1 t2, exec (.toBits .binary32 5) State.reset = .next s1 ∧
      exec (.toBits .binary64 6) s1 = .next s2 ∧ exec (.toBits .binary64 6) State.reset = .next t1 ∧
      exec (.toBits .binary32 5) t1 = .next t2 :=
  ⟨by decide, _, _, _, _, rfl, rfl, rfl, rfl⟩

theorem witness_AnsweringAgainChangesNothing :
    ∃ t, step (State.reset.issue (.toBits .binary32 5)) = .next t ∧ t.faultMark = none := ⟨_, rfl, rfl⟩

theorem witness_WellFormedRunsAreSafe :
    (∀ i ∈ [Instr.roundShift .binary32 0 24, .compose .binary32 1 0xFF 0x7FFFFF, .add .binary64 0 0],
      WellFormed i = true) ∧ State.reset.faultMark = none := by decide

theorem witness_RunStopsAtTheFirstFault :
    (∀ j ∈ [Instr.toBits .binary32 5], WellFormed j = true) ∧ State.reset.faultMark = none ∧
    (Instr.reserved15 .binary64).selectsOperation = false ∧
    WidthPolicy.manBits .binary64 + 1 < (54#8).toNat := by decide

theorem witness_StepKeepsPortsWired : Wired State.reset ∧ ∃ t, step State.reset = .next t := by
  refine ⟨fun w => ?_, ⟨_, rfl⟩⟩
  cases w <;> exact ⟨0, rfl⟩

/-- Both clauses: a step into a fault, from ports that show it, is wired and marked. -/
theorem witness_StepKeepsPortsWired_fault :
    ∃ t, step (State.reset.issue (.reserved13 .binary32)) = .next t ∧
      t.outputs t.sel = .fault .illegalOp := ⟨_, rfl, rfl⟩

theorem witness_StepKeepsPortsSettled : Settled (State.reset.issue (.toBits .binary64 5)) ∧
    ∃ t, step (State.reset.issue (.toBits .binary64 5)) = .next t := ⟨by unfold Settled; decide +kernel, _, rfl⟩

theorem witness_StepAnswersWhatThePortsShow : Settled State.reset ∧ ∃ t, step State.reset = .next t :=
  ⟨by unfold Settled; decide +kernel, _, rfl⟩

/-- Two settled states that differ, with the same inputs on one instance, and a line's next state. -/
theorem witness_OutputsFollowInputsAtOnce : Settled (State.reset.issue (.toBits .binary64 5)) ∧
    Settled State.reset ∧
    (State.reset.issue (.toBits .binary64 5)).inputs .binary32 = State.reset.inputs .binary32 ∧
    ∃ t, exec (.reserved14 .binary64) State.reset = .next t :=
  ⟨by unfold Settled; decide +kernel, by unfold Settled; decide +kernel, rfl, _, rfl⟩

/-- spec/70_reset_and_hazards.md R291: the sum stands on `y` as soon as the request is presented. -/
theorem test_answer_before_step :
    ((State.reset.issue (.add .binary32 0x3F800000 0x40000000)).outputs .binary32) = .value 0x40400000 := by
  decide +kernel

/-- The fault is on the ports at once too; the run's mark waits for the step that answers the request. -/
theorem test_fault_before_step :
    (State.reset.issue (.reserved15 .binary64)).outputs .binary64 = .fault .illegalOp ∧
    (State.reset.issue (.reserved15 .binary64)).faultMark = none := by decide +kernel

theorem zero_plus_zero_meets (w : WidthPolicy) (z : BitVec w.totalBits) (h : kindOf w z = .zero) :
    AddMeets w z z z := by
  unfold AddMeets; rw [h]; simp

theorem witness_StepKeepsAnswersShown : AnswersShown (State.reset.drive .binary32 (.value 0)) ∧
    ∃ t, step (State.reset.drive .binary32 (.value 0)) = .next t := by
  refine ⟨fun w => ?_, ⟨_, rfl⟩⟩
  cases w
  · exact ⟨0, rfl, zero_plus_zero_meets .binary32 0 (by decide)⟩
  · exact ⟨0, rfl, zero_plus_zero_meets .binary64 0 (by decide)⟩

theorem witness_StepAnswersByContract : State.reset.faultMark = none ∧
    (State.reset.issue (.div .binary64 0x3FF0000000000000 0)).faultMark = none := ⟨rfl, rfl⟩

theorem witness_TableWordsDecode : 16 ≤ 0x10 ∧ 16 ≤ 0xF0 := by decide

theorem witness_ComposeAndDecomposeAreInverse : 0xFF < 2 ^ WidthPolicy.expBits .binary32 ∧
    0x7FFFFF < 2 ^ WidthPolicy.manBits .binary32 := by decide

/-- Zero, the largest Subnormal, the smallest Normal and the largest finite are finite, with exponent fields on both
sides of the implicit bit's rule. -/
theorem witness_UnpackFiniteKeepsTheValue :
    ((kindOf .binary32 0x80000000).isFinite = true ∧ expField .binary32 0x80000000 = 0) ∧
    ((kindOf .binary32 0x007FFFFF).isFinite = true ∧ expField .binary32 0x007FFFFF = 0) ∧
    ((kindOf .binary32 0x00800000).isFinite = true ∧ expField .binary32 0x00800000 ≠ 0) ∧
    ((kindOf .binary32 0x7F7FFFFF).isFinite = true ∧ expField .binary32 0x7F7FFFFF ≠ 0) := by decide

theorem witness_PrenormalizeKeepsTheValue : 0 < (unpackFinite .binary32 0x00000001).man ∧
    (unpackFinite .binary32 0x00000001).man < 2 ^ WidthPolicy.sigBits .binary32 ∧
    WidthPolicy.hidden .binary32 ≤ (unpackFinite .binary32 0x00800000).man ∧
    (unpackFinite .binary32 0x00800000).man < 2 ^ WidthPolicy.sigBits .binary32 := by decide +kernel

theorem witness_KindPortEncoding :
    (Response.classified Kind.nan (decomposeRaw .binary32 0x7FC00000)).kindPort = some 4#3 := by decide

theorem witness_FiniteMagnitudeRange :
    (kindOf .binary64 0x0000000000000001).isFinite = true ∧ kindOf .binary64 0x0000000000000001 ≠ .zero ∧
    (kindOf .binary64 0xFFEFFFFFFFFFFFFF).isFinite = true ∧ kindOf .binary64 0xFFEFFFFFFFFFFFFF ≠ .zero ∧
    kindOf .binary64 0x0010000000000000 = .normal := by decide

theorem witness_RoundShiftIsNearestEven :
    (24#8).toNat ≤ WidthPolicy.manBits .binary32 + 1 ∧ (53#8).toNat ≤ WidthPolicy.manBits .binary64 + 1 ∧
    (∃ r r', (0xB : Nat) ≤ 0xE ∧ roundShift .binary32 0xB 2 = .ok r ∧ roundShift .binary32 0xE 2 = .ok r') :=
  ⟨by decide, by decide, _, _, by decide, rfl, rfl⟩

theorem witness_RoundShiftExactOutput : (0#8).toNat ≤ WidthPolicy.manBits .binary32 + 1 ∧
    (24#8).toNat ≤ WidthPolicy.manBits .binary32 + 1 := by decide

theorem witness_ShiftRangeFault : WidthPolicy.manBits .binary32 + 1 < (25#8).toNat ∧
    WidthPolicy.manBits .binary64 + 1 < (54#8).toNat ∧
    ∃ t, exec (.roundShift .binary32 7 25) State.reset = .next t ∧
      t.outputs (Instr.roundShift .binary32 7 25).policy = .fault .rsShiftRange :=
  ⟨by decide, by decide, _, rfl, rfl⟩

theorem witness_JamShiftKeepsLostBits : bitLength 0x16 ≤ 5 ∧ bitLength 0 ≤ 0 ∧ 2 ≤ 2 ∧ 2 ≤ 24 := by decide +kernel

theorem witness_NrpRoundsCorrectly : 0 < 0xFFFFFFF ∧ 0xFFFFFFF < 2 ^ (WidthPolicy.sigBits .binary32 + 3 + 1) ∧
    1 ≤ 3 ∧ 3 ≤ WidthPolicy.manBits .binary32 := by decide +kernel

/-- Operands for each clause of the statement, in its order: both signalling and quiet NaNs, both infinities, the
largest finite value, both zeros, the least and the greatest Subnormal. -/
theorem witness_AddSpecialRows :
    kindOf .binary32 0x7FC00001 = .nan ∧
    (kindOf .binary32 0x7F800000 ≠ .nan ∧ kindOf .binary32 0x7F800001 = .nan) ∧
    (kindOf .binary32 0xFF800000 = .infinity ∧ kindOf .binary32 0xFF800000 = .infinity ∧
      signField .binary32 0xFF800000 = signField .binary32 0xFF800000) ∧
    (kindOf .binary32 0x7F800000 = .infinity ∧ kindOf .binary32 0xFF800000 = .infinity ∧
      signField .binary32 0x7F800000 ≠ signField .binary32 0xFF800000) ∧
    (kindOf .binary32 0xFF800000 = .infinity ∧ (kindOf .binary32 0x7F7FFFFF).isFinite = true) ∧
    ((kindOf .binary32 0x00000000).isFinite = true ∧ kindOf .binary32 0x7F800000 = .infinity) ∧
    (kindOf .binary32 0x80000000 = .zero ∧ kindOf .binary32 0x80000000 = .zero ∧
      signField .binary32 0x80000000 = signField .binary32 0x80000000) ∧
    (kindOf .binary32 0x80000000 = .zero ∧ kindOf .binary32 0x00000000 = .zero ∧
      signField .binary32 0x80000000 ≠ signField .binary32 0x00000000) ∧
    (kindOf .binary32 0x00000000 = .zero ∧ (kindOf .binary32 0x00000001).isFinite = true ∧
      kindOf .binary32 0x00000001 ≠ .zero) ∧
    ((kindOf .binary32 0x807FFFFF).isFinite = true ∧ kindOf .binary32 0x807FFFFF ≠ .zero ∧
      kindOf .binary32 0x80000000 = .zero) := by decide

/-- 1.0 denotes 1 (spec/41_classifier.md R112). -/
theorem valueOf_one : valueOf .binary32 0x3F800000 = 1 := by
  have he : (expField .binary32 0x3F800000).toNat = 127 := by decide
  have hm : (manField .binary32 0x3F800000).toNat = 0 := by decide
  have hs : signField .binary32 0x3F800000 = 0 := by decide
  unfold valueOf magnitude
  rw [he, hm, hs, if_neg (by decide)]
  norm_num [WidthPolicy.hidden, WidthPolicy.bias, WidthPolicy.manBits, WidthPolicy.expBits, Nat.shiftLeft_eq]

/-- The pattern `0xBF800000` denotes -1. -/
theorem valueOf_minus_one : valueOf .binary32 0xBF800000 = -1 := by
  have he : (expField .binary32 0xBF800000).toNat = 127 := by decide
  have hm : (manField .binary32 0xBF800000).toNat = 0 := by decide
  have hs : signField .binary32 0xBF800000 = 1 := by decide
  unfold valueOf magnitude
  rw [he, hm, hs, if_pos rfl]
  norm_num [WidthPolicy.hidden, WidthPolicy.bias, WidthPolicy.manBits, WidthPolicy.expBits, Nat.shiftLeft_eq]

theorem witness_AddRoundsCorrectly : (kindOf .binary32 0x3F800000).isFinite = true ∧
    valueOf .binary32 0x3F800000 + valueOf .binary32 0x3F800000 ≠ 0 :=
  ⟨by decide, by rw [valueOf_one]; norm_num⟩

theorem witness_ExactCancellationIsPlusZero : (kindOf .binary32 0x3F800000).isFinite = true ∧
    (kindOf .binary32 0xBF800000).isFinite = true ∧ kindOf .binary32 0x3F800000 ≠ .zero ∧
    valueOf .binary32 0x3F800000 + valueOf .binary32 0xBF800000 = 0 :=
  ⟨by decide, by decide, by decide, by rw [valueOf_one, valueOf_minus_one]; norm_num⟩

theorem witness_AddCommutes : ¬(kindOf .binary32 0x7FC00001 = .nan ∧ kindOf .binary32 0x3F800000 = .nan) := by
  decide

theorem witness_PlusZeroIsAddIdentity : (0x7F800001 : BitVec 32) ≠ zeroBits .binary32 1 ∧
    zeroBits .binary32 0 ≠ zeroBits .binary32 1 := by decide

theorem witness_ZeroRowsAgreeWithComputedPath : kindOf .binary64 0x8000000000000000 = .zero ∧
    (kindOf .binary64 0x0000000000000001).isFinite = true ∧ kindOf .binary64 0x0000000000000001 ≠ .zero ∧
    kindOf .binary64 0x0000000000000000 = .zero := by decide

/-- Operands for each clause of the statement, in its order. -/
theorem witness_SubIsAddOfFlippedRight : kindOf .binary32 0x7F800001 = .nan ∧
    (kindOf .binary32 0x3F800000 ≠ .nan ∧ kindOf .binary32 0xFFFFFFFF = .nan) ∧
    (kindOf .binary32 0x80000001).isFinite = true ∧ kindOf .binary32 0xFF800000 = .infinity := by decide

theorem witness_SubRoundsCorrectly : (kindOf .binary32 0x3F800000).isFinite = true ∧
    (kindOf .binary32 0xBF800000).isFinite = true ∧
    valueOf .binary32 0x3F800000 - valueOf .binary32 0xBF800000 ≠ 0 :=
  ⟨by decide, by decide, by rw [valueOf_one, valueOf_minus_one]; norm_num⟩

/-- Operands for each clause of the statement, in its order. -/
theorem witness_MulSpecialRows :
    kindOf .binary64 0x7FF0000000000001 = .nan ∧
    (kindOf .binary64 0x7FF0000000000000 ≠ .nan ∧ kindOf .binary64 0xFFFFFFFFFFFFFFFF = .nan) ∧
    (kindOf .binary64 0x7FF0000000000000 = .infinity ∧ kindOf .binary64 0x8000000000000000 = .zero) ∧
    (kindOf .binary64 0x0000000000000000 = .zero ∧ kindOf .binary64 0xFFF0000000000000 = .infinity) ∧
    (kindOf .binary64 0xFFF0000000000000 = .infinity ∧ kindOf .binary64 0x0000000000000001 ≠ .nan ∧
      kindOf .binary64 0x0000000000000001 ≠ .zero) ∧
    (kindOf .binary64 0xFFF0000000000000 ≠ .nan ∧ kindOf .binary64 0xFFF0000000000000 ≠ .zero ∧
      kindOf .binary64 0x7FF0000000000000 = .infinity) ∧
    (kindOf .binary64 0x8000000000000000 = .zero ∧ (kindOf .binary64 0x7FEFFFFFFFFFFFFF).isFinite = true) ∧
    ((kindOf .binary64 0x8000000000000001).isFinite = true ∧ kindOf .binary64 0x0000000000000000 = .zero) := by
  decide

theorem witness_MulRoundsCorrectly : (kindOf .binary32 0x00000001).isFinite = true ∧
    kindOf .binary32 0x00000001 ≠ .zero ∧ (kindOf .binary32 0x7F7FFFFF).isFinite = true ∧
    kindOf .binary32 0x7F7FFFFF ≠ .zero := by decide

theorem witness_MulCommutes : ¬(kindOf .binary32 0x7F800000 = .nan ∧ kindOf .binary32 0x7FC00001 = .nan) := by
  decide

theorem witness_MulByOneIsIdentity : (kindOf .binary32 0x80000000).isFinite = true ∧
    (kindOf .binary32 0x007FFFFF).isFinite = true := by decide

/-- Operands for each clause of the statement, in its order. -/
theorem witness_DivSpecialRows :
    kindOf .binary32 0xFFA00000 = .nan ∧
    (kindOf .binary32 0x00000000 ≠ .nan ∧ kindOf .binary32 0x7FA00000 = .nan) ∧
    (kindOf .binary32 0x7F800000 = .infinity ∧ kindOf .binary32 0xFF800000 = .infinity) ∧
    (kindOf .binary32 0xFF800000 = .infinity ∧ (kindOf .binary32 0x80000000).isFinite = true) ∧
    ((kindOf .binary32 0x7F7FFFFF).isFinite = true ∧ kindOf .binary32 0x7F800000 = .infinity) ∧
    (kindOf .binary32 0x80000000 = .zero ∧ kindOf .binary32 0x00000000 = .zero) ∧
    ((kindOf .binary32 0x00000001).isFinite = true ∧ kindOf .binary32 0x00000001 ≠ .zero ∧
      kindOf .binary32 0x80000000 = .zero) ∧
    (kindOf .binary32 0x80000000 = .zero ∧ (kindOf .binary32 0x7F7FFFFF).isFinite = true ∧
      kindOf .binary32 0x7F7FFFFF ≠ .zero) := by decide

theorem witness_LongDivideClosedForm :
    WidthPolicy.hidden .binary32 ≤ 0x800000 ∧ 0x800000 < 2 ^ WidthPolicy.sigBits .binary32 ∧
    WidthPolicy.hidden .binary32 ≤ 0xFFFFFF ∧ 0xFFFFFF < 2 ^ WidthPolicy.sigBits .binary32 := by decide +kernel

theorem witness_DivRoundsCorrectly : (kindOf .binary64 0x0000000000000001).isFinite = true ∧
    kindOf .binary64 0x0000000000000001 ≠ .zero ∧ (kindOf .binary64 0x7FEFFFFFFFFFFFFF).isFinite = true ∧
    kindOf .binary64 0x7FEFFFFFFFFFFFFF ≠ .zero := by decide

theorem witness_DivExactCases : (kindOf .binary32 0x807FFFFF).isFinite = true ∧
    kindOf .binary32 0x807FFFFF ≠ .zero := by decide

theorem witness_NaNInNaNOut : kindOf .binary32 0x7F800001 = .nan ∨ kindOf .binary32 0x3F800000 = .nan :=
  Or.inl (by decide)

theorem witness_ReservedSelectsRaiseIllegalOp : 13 ≤ (busy 13).op.toNat ∧ 13 ≤ (busy 15).op.toNat ∧
    ∃ t, exec (.reserved14 .binary64) State.reset = .next t ∧
      t.outputs (Instr.reserved14 .binary64).policy = .fault .illegalOp := ⟨by decide, by decide, _, rfl, rfl⟩

end Sys2Proof.Tests
end

/-!
Correct rounding of ADD, MUL and DIV (spec/00_scope.md R3, spec/43_normalize_round_pack.md R149).

Two relations carry the argument.  `NearestEven t R` says that the integer `R` is `t` rounded; the rounding
engine establishes it.  `JamsTo t X` says that the natural number `X` stands for the exact `t`, with what was lost
of `t` kept in bit 0 of `X`; alignment and division establish it, and rounding cannot tell `X` from `t`.
-/

namespace Sys2Proof.Machine

/-! ### the nearest integer, ties to even -/

/-- `R` is the integer nearest to `t`, the even one of two equally near (spec/42_rounding_engine.md R127). -/
def NearestEven (t : ℚ) (R : ℕ) : Prop := |t - R| ≤ 1 / 2 ∧ (|t - R| = 1 / 2 → R % 2 = 0)

/-- Two different natural numbers are at least 1 apart. -/
theorem one_le_abs_natCast_sub {k R : ℕ} (h : k ≠ R) : (1 : ℚ) ≤ |(k : ℚ) - R| := by
  have hint : (1 : ℤ) ≤ |(k : ℤ) - R| := Int.one_le_abs (by omega)
  exact_mod_cast hint

namespace NearestEven

variable {t : ℚ} {R : ℕ}

/-- No natural number is nearer. -/
theorem dist_le (h : NearestEven t R) (k : ℕ) : |(R : ℚ) - t| ≤ |(k : ℚ) - t| := by
  rcases eq_or_ne k R with rfl | hk
  · rfl
  have hgap := one_le_abs_natCast_sub hk
  have htri := abs_sub_le (k : ℚ) t R
  have hnear := h.1
  rw [abs_sub_comm (R : ℚ) t]
  linarith

/-- Where another natural number is equally near, the chosen one is even. -/
theorem even_of_tie (h : NearestEven t R) {k : ℕ} (hk : k ≠ R) (htie : |(R : ℚ) - t| = |(k : ℚ) - t|) :
    R % 2 = 0 := by
  have hgap := one_le_abs_natCast_sub hk
  have htri := abs_sub_le (k : ℚ) t R
  have hnear := h.1
  rw [abs_sub_comm (R : ℚ) t] at htie
  exact h.2 (by linarith)

end NearestEven

/-- Nearness in units of `2^(m+1)`: `t` lies between the midpoints below and above `R`, and on neither of them
when `R` is odd. -/
theorem nearestEven_div_iff {t : ℚ} {R m : ℕ} :
    NearestEven (t / 2 ^ (m + 1)) R ↔
      (2 * R - 1) * 2 ^ m ≤ t ∧ t ≤ (2 * R + 1) * 2 ^ m ∧
      (R % 2 = 1 → (2 * R - 1) * 2 ^ m < t ∧ t < (2 * R + 1) * 2 ^ m) := by
  have hpow : (0 : ℚ) < 2 ^ m := by positivity
  obtain ⟨x, rfl⟩ : ∃ x : ℚ, t = (2 * x) * 2 ^ m := ⟨t / 2 ^ (m + 1), by field_simp; ring⟩
  have hx : 2 * x * 2 ^ m / 2 ^ (m + 1) = x := by field_simp; ring
  rw [hx, NearestEven]
  simp only [mul_le_mul_iff_left₀ hpow, mul_lt_mul_iff_left₀ hpow]
  constructor
  · rintro ⟨hnear, htie⟩
    obtain ⟨hlo, hhi⟩ := abs_le.mp hnear
    refine ⟨by linarith, by linarith, fun hodd => ?_⟩
    have hne : |x - R| ≠ 1 / 2 := fun h => by have := htie h; omega
    obtain ⟨hlo', hhi'⟩ := abs_lt.mp (lt_of_le_of_ne hnear hne)
    exact ⟨by linarith, by linarith⟩
  · rintro ⟨hlo, hhi, hodd⟩
    refine ⟨abs_le.mpr ⟨by linarith, by linarith⟩, fun htie => ?_⟩
    by_contra hR
    obtain ⟨hlo', hhi'⟩ := hodd (by omega)
    exact absurd htie (abs_lt.mpr ⟨by linarith, by linarith⟩).ne

namespace NearestEven

variable {t : ℚ} {R : ℕ}

/-- Nearness in halves: `nearestEven_div_iff` for `m = 0`. -/
theorem iff_halves :
    NearestEven t R ↔ 2 * R - 1 ≤ 2 * t ∧ 2 * t ≤ 2 * R + 1 ∧
      (R % 2 = 1 → 2 * R - 1 < 2 * t ∧ 2 * t < 2 * R + 1) := by
  have h := nearestEven_div_iff (t := 2 * t) (R := R) (m := 0)
  rw [show 2 * t / 2 ^ (0 + 1) = t by ring] at h
  simpa using h

/-- A number has one nearest integer. -/
theorem unique {R' : ℕ} (h : NearestEven t R) (h' : NearestEven t R') : R = R' := by
  obtain ⟨hlo, hhi, hodd⟩ := iff_halves.mp h
  obtain ⟨hlo', hhi', hodd'⟩ := iff_halves.mp h'
  have hle : R ≤ R' + 1 := by exact_mod_cast (by linarith : (R : ℚ) ≤ R' + 1)
  have hle' : R' ≤ R + 1 := by exact_mod_cast (by linarith : (R' : ℚ) ≤ R + 1)
  by_contra hne
  obtain rfl | rfl : R = R' + 1 ∨ R' = R + 1 := by omega
  · obtain hpar | hpar : (R' + 1) % 2 = 1 ∨ R' % 2 = 1 := by omega
    · have := (hodd hpar).1; push_cast at *; linarith
    · have := (hodd' hpar).2; push_cast at *; linarith
  · obtain hpar | hpar : (R + 1) % 2 = 1 ∨ R % 2 = 1 := by omega
    · have := (hodd' hpar).1; push_cast at *; linarith
    · have := (hodd hpar).2; push_cast at *; linarith

/-- Rounding does not cross an integer upwards. -/
theorem le_of_lt (h : NearestEven t R) {B : ℕ} (ht : t < B) : R ≤ B := by
  obtain ⟨hlo, -, -⟩ := iff_halves.mp h
  exact Nat.lt_succ_iff.mp (by exact_mod_cast (by linarith : (R : ℚ) < B + 1))

/-- Rounding does not cross an integer downwards. -/
theorem ge_of_ge (h : NearestEven t R) {B : ℕ} (ht : B ≤ t) : B ≤ R := by
  obtain ⟨-, hhi, -⟩ := iff_halves.mp h
  exact Nat.lt_succ_iff.mp (by exact_mod_cast (by linarith : (B : ℚ) < R + 1))

end NearestEven

/-! ### the rounding engine rounds to nearest -/

/-- The rounded shift as a number: one more than the quotient when the guard bit is set and the sticky or the low
bit is. -/
theorem roundedShift_succ (X m : ℕ) :
    roundedShift X (m + 1) = X / 2 ^ (m + 1) +
      if X / 2 ^ m % 2 = 1 ∧ (X % 2 ^ m ≠ 0 ∨ X / 2 ^ (m + 1) % 2 = 1) then 1 else 0 := by
  have hguard : guardBit X (m + 1) = decide (X / 2 ^ m % 2 = 1) := by
    simp [guardBit, Nat.testBit_eq_decide_div_mod_eq]
  have hsticky : stickyBit X (m + 1) = decide (X % 2 ^ m ≠ 0) := by
    cases m <;> simp [stickyBit, Nat.mod_one]
  have hlow : (X / 2 ^ (m + 1)).testBit 0 = decide (X / 2 ^ (m + 1) % 2 = 1) := Nat.testBit_zero _
  simp only [roundedShift, hguard, hsticky, Nat.shiftRight_eq_div_pow, hlow]
  by_cases hg : X / 2 ^ m % 2 = 1
  · by_cases hs : X % 2 ^ m = 0
    · by_cases hl : X / 2 ^ (m + 1) % 2 = 1 <;> simp [hg, hs, hl]
    · simp [hg, hs]
  · simp [hg]

/-- R122, R127: the rounded shift is the nearest integer, ties to even. -/
theorem roundedShift_nearestEven (X m : ℕ) :
    NearestEven ((X : ℚ) / 2 ^ (m + 1)) (roundedShift X (m + 1)) := by
  obtain ⟨Q, hQ⟩ : ∃ Q, X / 2 ^ (m + 1) = Q := ⟨_, rfl⟩
  obtain ⟨g, hg⟩ : ∃ g, X / 2 ^ m % 2 = g := ⟨_, rfl⟩
  obtain ⟨r, hr⟩ : ∃ r, X % 2 ^ m = r := ⟨_, rfl⟩
  have hpow : 0 < 2 ^ m := by positivity
  have hrlt : r < 2 ^ m := hr ▸ Nat.mod_lt _ hpow
  have hg2 : g = 0 ∨ g = 1 := by omega
  have hX : X = 2 ^ m * (2 * Q + g) + r := by
    have hhalf : X / 2 ^ m = 2 * Q + g := by
      rw [pow_succ, ← Nat.div_div_eq_div_mul] at hQ; omega
    rw [← hhalf, ← hr]; exact (Nat.div_add_mod X _).symm
  have hXq : (X : ℚ) = 2 ^ m * (2 * Q + g) + r := by exact_mod_cast hX
  have hr0 : (0 : ℚ) ≤ r := by positivity
  have hr1 : (r : ℚ) < 2 ^ m := by exact_mod_cast hrlt
  rw [roundedShift_succ, hQ, hg, hr, nearestEven_div_iff, hXq]
  split_ifs with hup
  · obtain ⟨rfl, hup⟩ := hup
    push_cast
    refine ⟨by nlinarith, by nlinarith, fun hodd => ⟨?_, by nlinarith⟩⟩
    have hpos : (0 : ℚ) < r := by
      exact_mod_cast Nat.pos_of_ne_zero (hup.resolve_right (by omega))
    nlinarith
  · obtain rfl | rfl := hg2
    · push_cast
      refine ⟨by nlinarith, by nlinarith, fun _ => ⟨by nlinarith, by nlinarith⟩⟩
    · obtain ⟨rfl, hQe⟩ : r = 0 ∧ Q % 2 ≠ 1 := by
        constructor <;> by_contra h <;> exact hup ⟨rfl, by omega⟩
      push_cast
      exact ⟨by nlinarith, by nlinarith, fun hodd => absurd hodd hQe⟩

/-! ### lost bits jammed into bit 0 -/

/-- `X` stands for the exact `t`: it is `t`, or it is odd and `t` lies strictly between its even neighbours, so
that bit 0 of `X` keeps the fact that something was lost (spec/43_normalize_round_pack.md R141). -/
def JamsTo (t : ℚ) (X : ℕ) : Prop := t = X ∨ (X % 2 = 1 ∧ (X : ℚ) - 1 < t ∧ t < X + 1)

namespace JamsTo

variable {t : ℚ} {X : ℕ}

theorem exact (X : ℕ) : JamsTo X X := .inl rfl

/-- `t` and `X` lie on the same side of every even integer. -/
theorem lt_even_iff (h : JamsTo t X) (b : ℤ) : t < 2 * b ↔ (X : ℤ) < 2 * b := by
  obtain rfl | ⟨hodd, hlo, hhi⟩ := h
  · exact_mod_cast Iff.rfl
  constructor
  · intro ht
    have : (X : ℤ) < 2 * b + 1 := by exact_mod_cast (by linarith : (X : ℚ) < 2 * b + 1)
    omega
  · intro hX
    have : (X : ℚ) + 1 ≤ 2 * b := by exact_mod_cast hX
    linarith

/-- `t` and `X` lie on the same side of every even integer. -/
theorem even_lt_iff (h : JamsTo t X) (b : ℤ) : 2 * b < t ↔ 2 * b < (X : ℤ) := by
  obtain rfl | ⟨hodd, hlo, hhi⟩ := h
  · exact_mod_cast Iff.rfl
  constructor
  · intro ht
    have : 2 * b - 1 < (X : ℤ) := by exact_mod_cast (by linarith : 2 * (b : ℚ) - 1 < X)
    omega
  · intro hX
    have : 2 * (b : ℚ) + 1 ≤ X := by exact_mod_cast hX
    linarith

/-- Only 0 stands for 0. -/
theorem pos_iff (h : JamsTo t X) : 0 < t ↔ 0 < X := by simpa using h.even_lt_iff 0

theorem nonneg (h : JamsTo t X) : 0 ≤ t := by
  rw [← not_lt]; simpa using (h.lt_even_iff 0).not.mpr (by simp)

/-- Rounding by two places or more does not tell `t` from `X`: every midpoint is even. -/
theorem nearestEven_roundedShift (h : JamsTo t X) (m : ℕ) :
    NearestEven (t / 2 ^ (m + 2)) (roundedShift X (m + 2)) := by
  obtain ⟨hlo, hhi, hodd⟩ := nearestEven_div_iff.mp (roundedShift_nearestEven X (m + 1))
  generalize roundedShift X (m + 2) = R at *
  have hdown : (2 * (R : ℚ) - 1) * 2 ^ (m + 1) = 2 * (((2 * R - 1) * 2 ^ m : ℤ) : ℚ) := by push_cast; ring
  have hup : (2 * (R : ℚ) + 1) * 2 ^ (m + 1) = 2 * (((2 * R + 1) * 2 ^ m : ℤ) : ℚ) := by push_cast; ring
  rw [nearestEven_div_iff, hdown, hup, ← not_lt, h.lt_even_iff, ← not_lt, h.even_lt_iff, h.even_lt_iff,
    h.lt_even_iff]
  simp only [hdown, hup] at hlo hhi hodd
  exact ⟨not_lt.mpr (by exact_mod_cast hlo), not_lt.mpr (by exact_mod_cast hhi),
    fun hR => ⟨by exact_mod_cast (hodd hR).1, by exact_mod_cast (hodd hR).2⟩⟩

end JamsTo

/-- R141: `jamShift X k` stands for the exact `X / 2^k`. -/
theorem jamShift_jamsTo (X k : ℕ) : JamsTo ((X : ℚ) / 2 ^ k) (jamShift X k) := by
  by_cases hlost : X % 2 ^ k = 0
  · left
    rw [jamShift_exact hlost, Nat.cast_div (Nat.dvd_of_mod_eq_zero hlost) (by positivity)]
    push_cast; rfl
  · right
    have hk : k ≠ 0 := by rintro rfl; simp [Nat.mod_one] at hlost
    have hodd : jamShift X k % 2 = 1 := by simp [jamShift, hk, hlost]
    have hdiv : jamShift X k / 2 = X / 2 ^ k / 2 := by
      rw [jamShift_div_two X k hk, pow_succ, Nat.div_div_eq_div_mul]
    have hX := Nat.div_add_mod X (2 ^ k)
    have hmod : X % 2 ^ k < 2 ^ k := Nat.mod_lt _ (by positivity)
    have hlo : 2 ^ k * (jamShift X k - 1) < X := by
      have : 2 ^ k * (jamShift X k - 1) ≤ 2 ^ k * (X / 2 ^ k) := Nat.mul_le_mul_left _ (by omega)
      omega
    have hhi : X < 2 ^ k * (jamShift X k + 1) := by
      have : 2 ^ k * (X / 2 ^ k + 1) ≤ 2 ^ k * (jamShift X k + 1) := Nat.mul_le_mul_left _ (by omega)
      rw [mul_add] at this
      omega
    have hpow : (0 : ℚ) < 2 ^ k := by positivity
    refine ⟨hodd, ?_, ?_⟩
    · rw [lt_div_iff₀ hpow, mul_comm, ← Nat.cast_pred (by omega)]
      exact_mod_cast hlo
    · rw [div_lt_iff₀ hpow, mul_comm]
      exact_mod_cast hhi

/-- R145: jamming before a rounding shift of two places or more rounds as the one shift by the sum. -/
theorem roundedShift_jamShift (X k : ℕ) {n : ℕ} (hn : 2 ≤ n) :
    roundedShift (jamShift X k) n = roundedShift X (k + n) := by
  obtain ⟨m, rfl⟩ := Nat.exists_eq_add_of_le' hn
  have hjam := (jamShift_jamsTo X k).nearestEven_roundedShift m
  have hone := roundedShift_nearestEven X (k + m + 1)
  rw [div_div, ← pow_add] at hjam
  exact hjam.unique hone

/-- Zeros shifted in at the right do not change the rounding. -/
theorem roundedShift_shiftLeft (X z m : ℕ) :
    roundedShift (X <<< z) (m + 1 + z) = roundedShift X (m + 1) := by
  have hleft := roundedShift_nearestEven (X <<< z) (m + z)
  rw [Nat.shiftLeft_eq, Nat.cast_mul, Nat.cast_pow, Nat.cast_ofNat, show m + z + 1 = m + 1 + z by ring,
    pow_add _ (m + 1), mul_div_mul_right _ _ (by positivity), ← Nat.shiftLeft_eq] at hleft
  exact hleft.unique (roundedShift_nearestEven X m)

/-! ### the fields of a packed pattern (spec/40_bit_unpacker.md R92) -/

theorem signField_composeRaw (w : WidthPolicy) (s : Sign) (be sm : ℕ) :
    signField w (composeRaw w s be sm) = s := by
  apply BitVec.eq_of_toNat_eq
  rw [signField_toNat, composeRaw_toNat]
  cases w <;> simp only [WidthPolicy.totalBits, WidthPolicy.expBits, WidthPolicy.manBits] <;> omega

theorem expField_composeRaw (w : WidthPolicy) (s : Sign) (be sm : ℕ) :
    (expField w (composeRaw w s be sm)).toNat = be % 2 ^ w.expBits := by
  rw [expField_toNat, composeRaw_toNat]
  cases w <;> simp only [WidthPolicy.totalBits, WidthPolicy.expBits, WidthPolicy.manBits] <;> omega

theorem manField_composeRaw (w : WidthPolicy) (s : Sign) (be sm : ℕ) :
    (manField w (composeRaw w s be sm)).toNat = sm % 2 ^ w.manBits := by
  rw [manField_toNat, composeRaw_toNat]
  cases w <;> simp only [WidthPolicy.totalBits, WidthPolicy.expBits, WidthPolicy.manBits] <;> omega

/-! ### the constants, related -/

theorem hidden_pos (w : WidthPolicy) : 0 < w.hidden := by rw [hidden_eq]; positivity

theorem two_mul_hidden (w : WidthPolicy) : 2 * w.hidden = 2 ^ w.sigBits := by
  rw [hidden_eq, WidthPolicy.sigBits]; ring

theorem hidden_even (w : WidthPolicy) : w.hidden % 2 = 0 := by cases w <;> rfl

theorem manBits_pos (w : WidthPolicy) : 1 ≤ w.manBits := by cases w <;> decide

theorem maxBiasedExp_eq_maxExp (w : WidthPolicy) : (w.maxBiasedExp : ℤ) = w.maxExp + w.bias + 1 := by
  rw [WidthPolicy.maxExp]; ring

theorem minExp_lt_maxExp (w : WidthPolicy) : w.minExp < w.maxExp := by cases w <;> decide

theorem minExp_add_bias (w : WidthPolicy) : w.minExp + w.bias = 1 := by rw [WidthPolicy.minExp]; ring

/-! ### finite patterns, unpacked (spec/40_bit_unpacker.md R93, spec/41_classifier.md R112) -/

/-- A pattern is finite exactly when its exponent field is not the largest (R110). -/
theorem isFinite_iff (w : WidthPolicy) (x : BitVec w.totalBits) :
    (kindOf w x).isFinite = true ↔ (expField w x).toNat ≠ w.maxBiasedExp := by
  have hmax : w.maxBiasedExp ≠ 0 := by cases w <;> decide
  unfold kindOf classifyFields
  split_ifs with hz hsub hinf hnan
  · simp [Kind.isFinite, hz.1, hmax.symm]
  · simp [Kind.isFinite, hsub.1, hmax.symm]
  · simp [Kind.isFinite, hinf.1]
  · simp [Kind.isFinite, hnan.1]
  · simp only [Kind.isFinite, true_iff]
    exact fun he => hnan ⟨he, fun hm => hinf ⟨he, hm⟩⟩

/-- A pattern is a Zero exactly when its exponent field and its stored mantissa are 0 (R110). -/
theorem kindOf_eq_zero_iff (w : WidthPolicy) (x : BitVec w.totalBits) :
    kindOf w x = .zero ↔ (expField w x).toNat = 0 ∧ (manField w x).toNat = 0 := by
  unfold kindOf classifyFields
  split_ifs with hz <;> simp [hz]

/-- A finite Kind is no NaN and no infinity. -/
theorem isFinite_ne {k : Kind} (h : k.isFinite = true) : k ≠ .nan ∧ k ≠ .infinity := by
  constructor <;> rintro rfl <;> simp [Kind.isFinite] at h

@[simp] theorem unpackFinite_sign (w : WidthPolicy) (x : BitVec w.totalBits) :
    (unpackFinite w x).sign = signField w x := by
  unfold unpackFinite; dsimp only; split <;> rfl

/-- R112: the unpacked mantissa and exponent denote the pattern's magnitude. -/
theorem magnitude_eq_unpackFinite (w : WidthPolicy) (x : BitVec w.totalBits) :
    magnitude w x = ((unpackFinite w x).man : ℚ) * 2 ^ ((unpackFinite w x).exp - (w.manBits : ℤ)) := by
  unfold magnitude unpackFinite WidthPolicy.minExp
  dsimp only
  split <;> rfl

/-- The unpacked mantissa has at most `p` bits. -/
theorem unpackFinite_man_lt (w : WidthPolicy) (x : BitVec w.totalBits) :
    (unpackFinite w x).man < 2 ^ w.sigBits := by
  have hm := manField_lt w x
  have hp : 2 ^ w.sigBits = 2 ^ w.manBits + 2 ^ w.manBits := by rw [WidthPolicy.sigBits]; ring
  unfold unpackFinite
  dsimp only
  split
  · dsimp only; omega
  · dsimp only; rw [hidden_or_manField]; omega

/-- The implicit bit is clear at the minimum exponent only. -/
theorem unpackFinite_exp_cases (w : WidthPolicy) (x : BitVec w.totalBits) :
    (unpackFinite w x).exp = w.minExp ∨
      (w.minExp ≤ (unpackFinite w x).exp ∧ w.hidden ≤ (unpackFinite w x).man) := by
  unfold unpackFinite
  dsimp only
  split
  · exact .inl rfl
  · next he =>
    have := minExp_add_bias w
    exact .inr ⟨by dsimp only; omega, Nat.left_le_or⟩

theorem minExp_le_unpackFinite_exp (w : WidthPolicy) (x : BitVec w.totalBits) :
    w.minExp ≤ (unpackFinite w x).exp := by
  rcases unpackFinite_exp_cases w x with h | h
  · exact h.ge
  · exact h.1

/-- A finite pattern's exponent is at most the maximum. -/
theorem unpackFinite_exp_le {w : WidthPolicy} {x : BitVec w.totalBits} (h : (kindOf w x).isFinite = true) :
    (unpackFinite w x).exp ≤ w.maxExp := by
  have hne := (isFinite_iff w x).mp h
  have hle := expField_le w x
  have hmax := maxBiasedExp_eq_maxExp w
  have hmin := minExp_lt_maxExp w
  unfold unpackFinite
  dsimp only
  split
  · exact hmin.le
  · dsimp only; omega

/-- A finite pattern that is no Zero has a nonzero mantissa. -/
theorem unpackFinite_man_pos {w : WidthPolicy} {x : BitVec w.totalBits} (h : kindOf w x ≠ .zero) :
    0 < (unpackFinite w x).man := by
  have hz := (kindOf_eq_zero_iff w x).not.mp h
  unfold unpackFinite
  dsimp only
  split
  · next he => exact Nat.pos_of_ne_zero fun hm => hz ⟨he, hm⟩
  · exact lt_of_lt_of_le (hidden_pos w) Nat.left_le_or

/-- A Zero has magnitude 0. -/
theorem magnitude_of_zero {w : WidthPolicy} {x : BitVec w.totalBits} (h : kindOf w x = .zero) :
    magnitude w x = 0 := by
  obtain ⟨he, hm⟩ := (kindOf_eq_zero_iff w x).mp h
  simp [magnitude, he, hm]

theorem magnitude_pos {w : WidthPolicy} {x : BitVec w.totalBits} (h : kindOf w x ≠ .zero) :
    0 < magnitude w x := by
  have := unpackFinite_man_pos h
  rw [magnitude_eq_unpackFinite]; positivity

/-- A power of two in units in the last place at `E`. -/
theorem two_pow_mul_ulp (w : WidthPolicy) (E : ℤ) (n : ℕ) :
    (2 : ℚ) ^ n * 2 ^ (E - (w.manBits : ℤ)) = 2 ^ (E + ((n : ℤ) - w.manBits)) := by
  rw [← zpow_natCast, ← zpow_add₀ two_ne_zero]; congr 1; ring

/-- Below its own binade's end: a magnitude is less than `2^(exp + 1)`. -/
theorem magnitude_lt_two_pow (w : WidthPolicy) (x : BitVec w.totalBits) :
    magnitude w x < 2 ^ ((unpackFinite w x).exp + 1) := by
  have hman : ((unpackFinite w x).man : ℚ) < 2 ^ w.sigBits := by exact_mod_cast unpackFinite_man_lt w x
  calc magnitude w x = ((unpackFinite w x).man : ℚ) * 2 ^ ((unpackFinite w x).exp - (w.manBits : ℤ)) :=
        magnitude_eq_unpackFinite w x
    _ < 2 ^ w.sigBits * 2 ^ ((unpackFinite w x).exp - (w.manBits : ℤ)) := by gcongr
    _ = 2 ^ ((unpackFinite w x).exp + 1) := by
        rw [two_pow_mul_ulp]; simp [WidthPolicy.sigBits]

/-- At an exponent no larger than its own, a magnitude is a whole number of units in the last place. -/
theorem magnitude_mem_grid {w : WidthPolicy} {x : BitVec w.totalBits} {E : ℤ}
    (h : E ≤ (unpackFinite w x).exp) :
    ∃ k : ℕ, magnitude w x = k * 2 ^ (E - (w.manBits : ℤ)) := by
  obtain ⟨n, hn⟩ := Int.eq_ofNat_of_zero_le (sub_nonneg.mpr h)
  refine ⟨(unpackFinite w x).man * 2 ^ n, ?_⟩
  have hexp : (unpackFinite w x).exp - (w.manBits : ℤ) = n + (E - (w.manBits : ℤ)) := by omega
  rw [magnitude_eq_unpackFinite, hexp, zpow_add₀ two_ne_zero, zpow_natCast]
  push_cast
  ring

/-! ### line N7 packs a value (spec/43_normalize_round_pack.md R148) -/

/-- A normal pattern's magnitude. -/
theorem magnitude_composeRaw_normal {w : WidthPolicy} (s : Sign) {be sm : ℕ} (hbe : be ≠ 0)
    (hmax : be ≤ w.maxBiasedExp) (hsm : sm < 2 ^ w.manBits) :
    magnitude w (composeRaw w s be sm) =
      ((2 ^ w.manBits + sm : ℕ) : ℚ) * 2 ^ ((be : ℤ) - w.bias - w.manBits) := by
  have hlt : be < 2 ^ w.expBits := by have := maxBiasedExp_succ w; omega
  have he : (expField w (composeRaw w s be sm)).toNat = be := by
    rw [expField_composeRaw, Nat.mod_eq_of_lt hlt]
  have hm : (manField w (composeRaw w s be sm)).toNat = sm := by
    rw [manField_composeRaw, Nat.mod_eq_of_lt hsm]
  have hor := hidden_or_manField w (composeRaw w s be sm)
  rw [hm] at hor
  simp only [magnitude, he, hm, hbe, if_false, hor]

/-- A subnormal pattern's magnitude. -/
theorem magnitude_composeRaw_subnormal {w : WidthPolicy} (s : Sign) {sm : ℕ} (hsm : sm < 2 ^ w.manBits) :
    magnitude w (composeRaw w s 0 sm) = (sm : ℚ) * 2 ^ (w.minExp - w.manBits) := by
  have he : (expField w (composeRaw w s 0 sm)).toNat = 0 := by simp [expField_composeRaw]
  have hm : (manField w (composeRaw w s 0 sm)).toNat = sm := by
    rw [manField_composeRaw, Nat.mod_eq_of_lt hsm]
  simp only [magnitude, he, hm, if_true, WidthPolicy.minExp]

/-- Above the maximum exponent line N7 gives the infinity of the sign. -/
theorem nrpPack_overflow {w : WidthPolicy} (s : Sign) {E : ℤ} {R : ℕ} (hE : w.maxExp < E)
    (hR : w.hidden ≤ R) : nrpPack w s E R = infBits w s := by
  have hmax := maxBiasedExp_eq_maxExp w
  have hbe : E + (w.bias : ℤ) ≥ (w.maxBiasedExp : ℤ) := by omega
  simp only [nrpPack, if_pos hR, if_pos hbe]

/-- `y` is the finite pattern of sign `s` and magnitude `R * 2^(E - MB)`, its mantissa even where `R` is. -/
structure Packs (w : WidthPolicy) (s : Sign) (E : ℤ) (R : ℕ) (y : BitVec w.totalBits) : Prop where
  sign_eq : signField w y = s
  isFinite : (kindOf w y).isFinite = true
  magnitude_eq : magnitude w y = (R : ℚ) * 2 ^ (E - (w.manBits : ℤ))
  even : R % 2 = 0 → evenMantissa w y

/-- Within the exponent range line N7 packs a `p`-bit mantissa without loss. -/
theorem nrpPack_packs {w : WidthPolicy} (s : Sign) {E : ℤ} {R : ℕ} (hmin : w.minExp ≤ E)
    (hmax : E ≤ w.maxExp) (hR : R < 2 ^ w.sigBits) (hlow : E = w.minExp ∨ w.hidden ≤ R) :
    Packs w s E R (nrpPack w s E R) := by
  have hmaxeq := maxBiasedExp_eq_maxExp w
  have hmineq := minExp_add_bias w
  have hpow := maxBiasedExp_succ w
  have hp : 2 ^ w.sigBits = 2 * 2 ^ w.manBits := by rw [WidthPolicy.sigBits]; ring
  have hhid := hidden_eq w
  have heven : ∀ m, m % 2 ^ w.manBits % 2 = m % 2 := fun m =>
    Nat.mod_mod_of_dvd m (dvd_pow_self 2 (Nat.one_le_iff_ne_zero.mp (manBits_pos w)))
  by_cases hnorm : w.hidden ≤ R
  · obtain ⟨be, hbe⟩ := Int.eq_ofNat_of_zero_le (by omega : 0 ≤ E + (w.bias : ℤ))
    have hman : R &&& w.manMask = R - 2 ^ w.manBits := by
      rw [manMask_eq, Nat.and_two_pow_sub_one_eq_mod, Nat.mod_eq_sub_mod (by omega),
        Nat.mod_eq_of_lt (by omega)]
    have hpack : nrpPack w s E R = composeRaw w s be (R - 2 ^ w.manBits) := by
      simp only [nrpPack, if_pos hnorm, hman, hbe, if_neg (by omega : ¬ (be : ℤ) ≥ w.maxBiasedExp),
        Int.toNat_natCast]
    rw [hpack]
    refine ⟨signField_composeRaw .., ?_, ?_, fun hRe => ?_⟩
    · rw [isFinite_iff, expField_composeRaw, Nat.mod_eq_of_lt (by omega)]; omega
    · rw [magnitude_composeRaw_normal s (by omega) (by omega) (by omega),
        Nat.add_sub_cancel' (by omega), show (be : ℤ) - w.bias = E by omega]
    · rw [evenMantissa, manField_composeRaw, heven]
      have := hidden_even w
      omega
  · have hpack : nrpPack w s E R = composeRaw w s 0 R := by simp only [nrpPack, if_neg hnorm]
    obtain rfl : E = w.minExp := hlow.resolve_right hnorm
    rw [hpack]
    refine ⟨signField_composeRaw .., ?_, magnitude_composeRaw_subnormal s (by omega), fun hRe => ?_⟩
    · rw [isFinite_iff, expField_composeRaw, Nat.zero_mod]; omega
    · rw [evenMantissa, manField_composeRaw, heven, hRe]

/-! ### the packed result is correctly rounded (spec/43_normalize_round_pack.md R147 to R149) -/

/-- The overflow threshold in units in the last place of the largest binade: the largest mantissa and a half. -/
theorem overflowMagnitude_eq (w : WidthPolicy) :
    overflowMagnitude w = ((2 * (2 ^ w.sigBits - 1 : ℕ) + 1 : ℕ) : ℚ) / 2 * 2 ^ (w.maxExp - (w.manBits : ℤ)) := by
  have hnat : 2 ^ (w.sigBits + 1) - 1 = 2 * (2 ^ w.sigBits - 1) + 1 := by
    have : 0 < 2 ^ w.sigBits := by positivity
    rw [pow_succ]; omega
  have hexp : w.maxExp - (w.sigBits : ℤ) = (w.maxExp - (w.manBits : ℤ)) - 1 := by
    push_cast [WidthPolicy.sigBits]; ring
  rw [overflowMagnitude, hnat, hexp, zpow_sub_one₀ two_ne_zero]
  ring

/-- The overflow threshold lies inside the largest binade. -/
theorem overflowMagnitude_bounds (w : WidthPolicy) :
    2 ^ w.maxExp < overflowMagnitude w ∧ overflowMagnitude w < 2 ^ (w.maxExp + 1) := by
  have hunit : (0 : ℚ) < 2 ^ (w.maxExp - (w.manBits : ℤ)) := by positivity
  have hhid : (2 : ℚ) ^ w.maxExp = 2 ^ w.manBits * 2 ^ (w.maxExp - (w.manBits : ℤ)) := by
    rw [two_pow_mul_ulp]; simp
  have hman : (1 : ℚ) < 2 ^ w.manBits := one_lt_pow₀ one_lt_two (Nat.one_le_iff_ne_zero.mp (manBits_pos w))
  have hcast : ((2 * (2 ^ w.sigBits - 1 : ℕ) + 1 : ℕ) : ℚ) / 2 = 2 * 2 ^ w.manBits - 1 / 2 := by
    rw [WidthPolicy.sigBits]
    push_cast [Nat.one_le_two_pow]
    ring
  rw [overflowMagnitude_eq, zpow_add_one₀ two_ne_zero, hhid, hcast]
  exact ⟨by nlinarith, by nlinarith⟩

/-- A nearest integer of `q` in units in the last place is at a nearest magnitude of the grid of that unit. -/
theorem NearestEven.scaled_dist_le {q u : ℚ} {R : ℕ} (hu : 0 < u) (h : NearestEven (q / u) R) (k : ℕ) :
    |R * u - q| ≤ |k * u - q| ∧ (|R * u - q| = |k * u - q| → k ≠ R → R % 2 = 0) := by
  have hscale : ∀ n : ℕ, |n * u - q| = |(n : ℚ) - q / u| * u := fun n => by
    rw [← abs_of_pos hu, ← abs_mul, abs_of_pos hu, sub_mul, div_mul_cancel₀ _ hu.ne']
  rw [hscale, hscale, mul_le_mul_iff_left₀ hu, mul_left_inj' hu.ne']
  exact ⟨h.dist_le k, fun htie hk => h.even_of_tie hk htie⟩

/-- R147: line N6 packs the carry out of a full mantissa at the next exponent, and every other mantissa as it is. -/
theorem nrpCarryPack_packs {w : WidthPolicy} (s : Sign) {E : ℤ} {R : ℕ} (hmin : w.minExp ≤ E)
    (hmax : E < w.maxExp ∨ E = w.maxExp ∧ R ≠ 2 ^ w.sigBits) (hR : R ≤ 2 ^ w.sigBits)
    (hlow : E = w.minExp ∨ w.hidden ≤ R) : Packs w s E R (nrpCarryPack w s E R) := by
  rw [nrpCarryPack]
  split_ifs with hcarry
  · have hE : E + 1 ≤ w.maxExp := by have := hmax.resolve_right fun h => h.2 hcarry; omega
    have hfit : w.hidden < 2 ^ w.sigBits := by have := two_mul_hidden w; have := hidden_pos w; omega
    obtain ⟨hsign, hfinite, hmag, heven⟩ := nrpPack_packs s (by omega) hE hfit (.inr le_rfl)
    refine ⟨hsign, hfinite, ?_, fun _ => heven (hidden_even w)⟩
    rw [hmag, hcarry, ← two_mul_hidden, add_sub_right_comm, zpow_add_one₀ two_ne_zero]
    push_cast
    ring
  · exact nrpPack_packs s hmin (by omega) (lt_of_le_of_ne hR hcarry) hlow

/-- The heart of R149: a finite pattern that packs the nearest multiple of the unit at `E` is nearest among all
finite patterns, because a pattern of a smaller unit lies below `2^E`, itself such a multiple and nearer. -/
theorem Packs.roundsTo {w : WidthPolicy} {s : Sign} {E : ℤ} {R : ℕ} {q : ℚ} {y : BitVec w.totalBits}
    (h : Packs w s E R y) (hq : q < overflowMagnitude w)
    (hR : NearestEven (q / 2 ^ (E - (w.manBits : ℤ))) R) (hlow : E = w.minExp ∨ 2 ^ E ≤ q) :
    RoundsTo w s q y := by
  have hunit : (0 : ℚ) < 2 ^ (E - (w.manBits : ℤ)) := by positivity
  rw [RoundsTo, if_neg (not_le.mpr hq)]
  refine ⟨h.sign_eq, h.isFinite, fun z _ => ?_⟩
  rw [h.magnitude_eq]
  by_cases hzE : E ≤ (unpackFinite w z).exp
  · obtain ⟨k, hk⟩ := magnitude_mem_grid hzE
    obtain ⟨hdist, htie⟩ := hR.scaled_dist_le hunit k
    rw [hk]
    exact ⟨hdist, fun heq hne => h.even (htie heq fun hkR => hne (by rw [hkR]))⟩
  · have hqE : 2 ^ E ≤ q := hlow.resolve_left fun hE => hzE (hE ▸ minExp_le_unpackFinite_exp w z)
    have hzlt : magnitude w z < 2 ^ E :=
      (magnitude_lt_two_pow w z).trans_le (zpow_le_zpow_right₀ one_le_two (by omega))
    have hhid : ((2 ^ w.manBits : ℕ) : ℚ) * 2 ^ (E - (w.manBits : ℤ)) = 2 ^ E := by
      rw [Nat.cast_pow, Nat.cast_ofNat, two_pow_mul_ulp]; simp
    have hdist := (hR.scaled_dist_le hunit (2 ^ w.manBits)).1
    have hcloser : |(2 : ℚ) ^ E - q| < |magnitude w z - q| := by
      rw [abs_of_nonpos (by linarith), abs_of_neg (by linarith)]; linarith
    rw [hhid] at hdist
    have hlt := hdist.trans_lt hcloser
    exact ⟨hlt.le, fun heq => absurd heq hlt.ne⟩

/-- What line N6 hands to line N7 is above the exponent range exactly when the exact magnitude overflows: in the
largest binade rounding carries out exactly from the threshold on. -/
theorem overflow_iff_carry {w : WidthPolicy} {E : ℤ} {R : ℕ} {q : ℚ}
    (hR : NearestEven (q / 2 ^ (E - (w.manBits : ℤ))) R) (hlow : E = w.minExp ∨ 2 ^ E ≤ q)
    (hhigh : q < 2 ^ (E + 1)) (hRp : R ≤ 2 ^ w.sigBits) :
    overflowMagnitude w ≤ q ↔ w.maxExp < E ∨ (E = w.maxExp ∧ R = 2 ^ w.sigBits) := by
  obtain ⟨hovlo, hovhi⟩ := overflowMagnitude_bounds w
  rcases lt_trichotomy E w.maxExp with hE | rfl | hE
  · have hbelow : (2 : ℚ) ^ (E + 1) ≤ 2 ^ w.maxExp := zpow_le_zpow_right₀ one_le_two (by omega)
    exact iff_of_false (by linarith) (by omega)
  · have hunit : (0 : ℚ) < 2 ^ (w.maxExp - (w.manBits : ℤ)) := by positivity
    obtain ⟨hdown, hup, hodd⟩ := NearestEven.iff_halves.mp hR
    obtain ⟨M, hM⟩ : ∃ M, 2 ^ w.sigBits = M + 1 := Nat.exists_eq_succ_of_ne_zero (by positivity)
    have hModd : M % 2 = 1 := by rw [WidthPolicy.sigBits, pow_succ] at hM; omega
    rw [overflowMagnitude_eq, ← le_div_iff₀ hunit, hM]
    simp only [lt_irrefl, true_and, false_or, Nat.add_sub_cancel]
    generalize q / 2 ^ (w.maxExp - (w.manBits : ℤ)) = t at *
    constructor
    · intro ht
      push_cast at ht
      have hMR : M ≤ R := by exact_mod_cast (by linarith : (M : ℚ) ≤ R)
      by_contra hne
      obtain rfl : R = M := by omega
      linarith [(hodd hModd).2]
    · rintro rfl
      push_cast at *
      linarith
  · have habove : (2 : ℚ) ^ (w.maxExp + 1) ≤ 2 ^ E := zpow_le_zpow_right₀ one_le_two (by omega)
    have hqE : 2 ^ E ≤ q := hlow.resolve_left fun h => by have := minExp_lt_maxExp w; omega
    exact iff_of_true (by linarith) (.inl hE)

/-- R147 to R149: lines N6 and N7 on the nearest integer of `q` in units at `E` give `q` correctly rounded, when
`q` lies in the binade of `E`, or below it with `E` the minimum exponent. -/
theorem nrpCarryPack_roundsTo {w : WidthPolicy} (s : Sign) {E : ℤ} {R : ℕ} {q : ℚ} (hmin : w.minExp ≤ E)
    (hR : NearestEven (q / 2 ^ (E - (w.manBits : ℤ))) R) (hlow : E = w.minExp ∨ 2 ^ E ≤ q)
    (hhigh : q < 2 ^ (E + 1)) : RoundsTo w s q (nrpCarryPack w s E R) := by
  have hunit : (0 : ℚ) < 2 ^ (E - (w.manBits : ℤ)) := by positivity
  have hRp : R ≤ 2 ^ w.sigBits := hR.le_of_lt <| by
    rw [div_lt_iff₀ hunit, Nat.cast_pow, Nat.cast_ofNat, two_pow_mul_ulp]
    simpa [WidthPolicy.sigBits] using hhigh
  have hRh : E = w.minExp ∨ w.hidden ≤ R := hlow.imp_right fun h => hR.ge_of_ge <| by
    rw [le_div_iff₀ hunit, hidden_eq, Nat.cast_pow, Nat.cast_ofNat, two_pow_mul_ulp]
    simpa using h
  have hov := overflow_iff_carry hR hlow hhigh hRp
  by_cases hq : overflowMagnitude w ≤ q
  · have hexp := minExp_lt_maxExp w
    have hnorm : w.hidden ≤ R := hRh.resolve_left (by have := hov.mp hq; omega)
    rw [RoundsTo, if_pos hq, nrpCarryPack]
    split_ifs with hcarry
    · exact nrpPack_overflow s (by have := hov.mp hq; omega) le_rfl
    · exact nrpPack_overflow s ((hov.mp hq).resolve_right fun h => hcarry h.2) hnorm
  · have hmax := hov.not.mp hq
    exact (nrpCarryPack_packs s hmin (by omega) hRp hRh).roundsTo (not_le.mp hq) hR hlow

/-- A finite pattern's magnitude is below the overflow threshold. -/
theorem magnitude_lt_overflowMagnitude {w : WidthPolicy} {x : BitVec w.totalBits}
    (h : (kindOf w x).isFinite = true) : magnitude w x < overflowMagnitude w := by
  have hman : (unpackFinite w x).man ≤ 2 ^ w.sigBits - 1 := Nat.le_sub_one_of_lt (unpackFinite_man_lt w x)
  have hexp : (2 : ℚ) ^ ((unpackFinite w x).exp - (w.manBits : ℤ)) ≤ 2 ^ (w.maxExp - (w.manBits : ℤ)) :=
    zpow_le_zpow_right₀ one_le_two (by have := unpackFinite_exp_le h; omega)
  calc magnitude w x = ((unpackFinite w x).man : ℚ) * 2 ^ ((unpackFinite w x).exp - (w.manBits : ℤ)) :=
        magnitude_eq_unpackFinite w x
    _ ≤ ((2 ^ w.sigBits - 1 : ℕ) : ℚ) * 2 ^ (w.maxExp - (w.manBits : ℤ)) := by gcongr
    _ < overflowMagnitude w := by
        rw [overflowMagnitude_eq]
        gcongr
        push_cast
        linarith

/-- A finite pattern is its own magnitude correctly rounded. -/
theorem roundsTo_self {w : WidthPolicy} {x : BitVec w.totalBits} (h : (kindOf w x).isFinite = true) :
    RoundsTo w (signField w x) (magnitude w x) x := by
  rw [RoundsTo, if_neg (not_le.mpr (magnitude_lt_overflowMagnitude h))]
  refine ⟨rfl, h, fun z _ => ⟨by simp, fun htie hne => ?_⟩⟩
  rw [sub_self, abs_zero, eq_comm, abs_eq_zero, sub_eq_zero] at htie
  exact absurd htie hne

/-! ### the normalize, round and pack stage rounds correctly (spec/43_normalize_round_pack.md R149) -/

namespace JamsTo

variable {t : ℚ} {X z : ℕ}

/-- A shift to the left keeps which side of a power of two above its low bit the exact value lies on. -/
theorem shiftLeft_lt_iff (h : JamsTo t X) {N : ℕ} (hz : t = X ∨ z < N) :
    t * 2 ^ z < 2 ^ N ↔ X <<< z < 2 ^ N := by
  rw [Nat.shiftLeft_eq]
  obtain rfl | hz := hz
  · exact_mod_cast Iff.rfl
  · obtain ⟨m, rfl⟩ := Nat.exists_eq_add_of_lt hz
    have hsplit : z + m + 1 = (m + 1) + z := by ring
    have heven := h.lt_even_iff (2 ^ m)
    rw [hsplit, pow_add _ (m + 1) z, pow_add _ (m + 1) z, mul_lt_mul_iff_left₀ (by positivity),
      mul_lt_mul_iff_left₀ (by positivity), pow_succ', pow_succ']
    exact_mod_cast heven

/-- After a shift to the left, rounding by two more places than that, or of an exact value, is still right. -/
theorem nearestEven_shiftLeft (h : JamsTo t X) {n : ℕ} (hn : t = X ∧ 1 ≤ n ∨ z + 2 ≤ n) :
    NearestEven (t * 2 ^ z / 2 ^ n) (roundedShift (X <<< z) n) := by
  obtain ⟨rfl, hn⟩ | hn := hn
  · obtain ⟨m, rfl⟩ := Nat.exists_eq_add_of_le' hn
    have hround := roundedShift_nearestEven (X <<< z) m
    rwa [Nat.shiftLeft_eq, Nat.cast_mul, Nat.cast_pow, Nat.cast_ofNat, ← Nat.shiftLeft_eq] at hround
  · obtain ⟨m, rfl⟩ := Nat.exists_eq_add_of_le hn
    have hsplit : z + 2 + m = m + 1 + 1 + z := by ring
    rw [hsplit, roundedShift_shiftLeft, pow_add _ _ z, mul_div_mul_right _ _ (by positivity)]
    exact h.nearestEven_roundedShift m

end JamsTo

/-- What lines N1 to N3 have made of `(e, X, g)`: `X` shifted left by `z` and the exponent and the rounding shift
adjusted to it, the value unchanged. -/
structure ScaledFrom (w : WidthPolicy) (e : ℤ) (X g z : ℕ) (v : Scaled) : Prop where
  man_eq : v.man = X <<< z
  exp_sub_shift : v.exp - (v.shift : ℤ) = e - z - g
  guard_le : g ≤ v.shift
  man_lt : v.man < 2 ^ (w.sigBits + v.shift)
  normal : v.exp ≤ w.minExp ∨ 2 ^ (w.manBits + v.shift) ≤ v.man
  padding : z = 0 ∨ bitLength X + z ≤ w.sigBits + g

/-- R142, R143: lines N1 and N2 keep the value and bring the leading bit to its place, or stop at the minimum
exponent. -/
theorem nrpNormalize_scaledFrom {w : WidthPolicy} {e : ℤ} {X g : ℕ} (hpos : 0 < X)
    (hX : X < 2 ^ (w.sigBits + g + 1)) : ∃ z, ScaledFrom w e X g z (nrpNormalize w e X g) := by
  have hbits : bitLength X ≤ w.sigBits + g + 1 := bitLength_le_iff.mpr hX
  have hlt := lt_two_pow_bitLength X
  have hge := two_pow_bitLength_le hpos.ne'
  have hlen := bitLength_pos hpos.ne'
  unfold nrpNormalize
  dsimp only
  split_ifs with hcarry hfull
  · refine ⟨0, by simp, by push_cast; ring, by simp, hX, .inr ?_, .inl rfl⟩
    rw [hcarry] at hge
    exact (Nat.pow_le_pow_right two_pos (by simp only [WidthPolicy.sigBits]; omega)).trans hge
  · refine ⟨0, by simp, by push_cast; ring, le_rfl, hfull ▸ hlt, .inr ?_, .inl rfl⟩
    rw [hfull] at hge
    exact (Nat.pow_le_pow_right two_pos (by simp only [WidthPolicy.sigBits]; omega)).trans hge
  · generalize hz : min (w.sigBits + g - bitLength X) (max (e - w.minExp) 0).toNat = z
    have hpad : bitLength X + z ≤ w.sigBits + g := by omega
    refine ⟨z, rfl, by ring, le_rfl, ?_, ?_, .inr hpad⟩
    · calc X <<< z = X * 2 ^ z := Nat.shiftLeft_eq X z
        _ < 2 ^ bitLength X * 2 ^ z := Nat.mul_lt_mul_of_pos_right hlt (by positivity)
        _ = 2 ^ (bitLength X + z) := (pow_add ..).symm
        _ ≤ 2 ^ (w.sigBits + g) := Nat.pow_le_pow_right two_pos hpad
    · refine (le_or_gt (e - z) w.minExp).imp_right fun habove => ?_
      have hlead : w.manBits + g = bitLength X - 1 + z := by simp only [WidthPolicy.sigBits] at *; omega
      rw [hlead, pow_add, Nat.shiftLeft_eq]
      exact Nat.mul_le_mul_right _ hge

/-- R144: line N3 keeps the value, moving the deficit below the minimum exponent into the rounding shift. -/
theorem ScaledFrom.nrpDenormalize {w : WidthPolicy} {e : ℤ} {X g z : ℕ} {v : Scaled}
    (h : ScaledFrom w e X g z v) : ScaledFrom w e X g z (nrpDenormalize w v) := by
  obtain ⟨hman, hexp, hguard, hlt, hnormal, hpad⟩ := h
  unfold Machine.nrpDenormalize
  split_ifs with hlow
  · refine ⟨hman, by dsimp only; omega, by dsimp only; omega, ?_, .inl le_rfl, hpad⟩
    exact hlt.trans_le (Nat.pow_le_pow_right two_pos (by dsimp only; omega))
  · exact ⟨hman, hexp, hguard, hlt, hnormal, hpad⟩

/-- R145, R146: lines N4 and N5 round by the whole shift, whether or not it is inside the engine's range. -/
theorem roundShift_nrpJam (w : WidthPolicy) {v : Scaled} (hshift : 1 ≤ v.shift) :
    ∃ exact, roundShift w (nrpJam w v).man (nrpJam w v).shift = .ok (roundedShift v.man v.shift, exact) := by
  have hp : 2 ≤ w.sigBits := Nat.succ_le_succ (manBits_pos w)
  unfold nrpJam
  split_ifs with hbig
  · have hround := roundShift_in_range (w := w) (Nat.succ_ne_zero _) le_rfl
      (jamShift v.man (v.shift - w.sigBits))
    rw [roundedShift_jamShift _ _ hp, Nat.sub_add_cancel hbig.le] at hround
    exact ⟨_, hround⟩
  · exact ⟨_, roundShift_in_range (by omega) (Nat.le_of_not_gt hbig) _⟩

/-- Lines N4 to N7 on what lines N1 to N3 leave. -/
theorem nrp_eq_carryPack {w : WidthPolicy} (s : Sign) {e : ℤ} {X g : ℕ} {v : Scaled}
    (hv : nrpDenormalize w (nrpNormalize w e X g) = v) (hshift : 1 ≤ v.shift) :
    nrp w s e X g = .ok (nrpCarryPack w s v.exp (roundedShift v.man v.shift)) := by
  obtain ⟨exact, hround⟩ := roundShift_nrpJam w hshift
  simp only [nrp, hv, hround, nrpJam_exp]
  rfl

/-- R149: `nrp` rounds correctly every exact magnitude that its `X` stands for, where either `X` is exact or at least
two bits of it, below the mantissa, are there to hold what was lost. -/
theorem nrp_roundsTo {w : WidthPolicy} (s : Sign) (e : ℤ) {X g : ℕ} {t : ℚ} (hjam : JamsTo t X) (hpos : 0 < X)
    (hX : X < 2 ^ (w.sigBits + g + 1)) (hg : 1 ≤ g) (hroom : t = X ∨ 2 ^ (w.sigBits + 1) ≤ X) :
    ∃ y, nrp w s e X g = .ok y ∧ RoundsTo w s (t * 2 ^ (e - (w.manBits : ℤ) - (g : ℤ))) y := by
  obtain ⟨z, hnorm⟩ := nrpNormalize_scaledFrom (e := e) hpos hX
  have hmin : w.minExp ≤ (nrpDenormalize w (nrpNormalize w e X g)).exp := by simp [nrpDenormalize_exp]
  obtain ⟨hman, hexp, hguard, hlt, hnormal, hpad⟩ := hnorm.nrpDenormalize
  generalize hv : nrpDenormalize w (nrpNormalize w e X g) = v at *
  refine ⟨_, nrp_eq_carryPack s hv (by omega), ?_⟩
  obtain ⟨E, Y, n⟩ := v
  dsimp only at *
  subst hman
  have hn : t = X ∧ 1 ≤ n ∨ z + 2 ≤ n := by
    refine hroom.imp (fun ht => ⟨ht, by omega⟩) fun hlarge => ?_
    have hlen : w.sigBits + 1 < bitLength X := by
      rw [← not_le, bitLength_le_iff]; omega
    rcases hpad with rfl | hpad
    · have : w.sigBits + 1 < w.sigBits + n := (Nat.pow_lt_pow_iff_right one_lt_two).mp (hlarge.trans_lt hlt)
      omega
    · omega
  have hz : ∀ k, t = X ∨ z < k + n := fun k => hn.imp And.left (by omega)
  have hq : t * 2 ^ (e - (w.manBits : ℤ) - (g : ℤ)) = t * 2 ^ z / 2 ^ n * 2 ^ (E - (w.manBits : ℤ)) := by
    rw [mul_div_assoc, mul_assoc, ← zpow_natCast, ← zpow_natCast, ← zpow_sub₀ two_ne_zero,
      ← zpow_add₀ two_ne_zero]
    congr 2
    omega
  have hunit : (0 : ℚ) < 2 ^ (E - (w.manBits : ℤ)) := by positivity
  have hpow : (0 : ℚ) < 2 ^ n := by positivity
  rw [hq]
  refine nrpCarryPack_roundsTo s hmin ?_ ?_ ?_
  · rw [mul_div_cancel_right₀ _ hunit.ne']
    exact hjam.nearestEven_shiftLeft hn
  · refine hnormal.imp (le_antisymm · hmin) fun hlead => ?_
    rw [← not_lt, ← hjam.shiftLeft_lt_iff (hz _), not_lt, pow_add, ← le_div_iff₀ hpow] at hlead
    calc (2 : ℚ) ^ E = 2 ^ w.manBits * 2 ^ (E - (w.manBits : ℤ)) := by rw [two_pow_mul_ulp]; simp
      _ ≤ _ := by gcongr
  · rw [← hjam.shiftLeft_lt_iff (hz _), pow_add, ← div_lt_iff₀ hpow] at hlt
    calc _ < 2 ^ w.sigBits * 2 ^ (E - (w.manBits : ℤ)) := by gcongr
      _ = (2 : ℚ) ^ (E + 1) := by rw [two_pow_mul_ulp]; simp [WidthPolicy.sigBits]

/-! ### prenormalized operands (spec/40_bit_unpacker.md R94) -/

/-- R94: the leading bit of a nonzero mantissa is brought to position `MB`. -/
theorem prenormalize_man_bounds {w : WidthPolicy} {u : Unpacked} (hpos : 0 < u.man)
    (hman : u.man < 2 ^ w.sigBits) :
    w.hidden ≤ (prenormalize w u).man ∧ (prenormalize w u).man < 2 ^ w.sigBits := by
  have hlen : bitLength u.man ≤ w.sigBits := bitLength_le_iff.mpr hman
  have hlen0 := bitLength_pos hpos.ne'
  have hlo := two_pow_bitLength_le hpos.ne'
  have hhi := lt_two_pow_bitLength u.man
  obtain ⟨z, hz⟩ := Nat.exists_eq_add_of_le hlen
  simp only [prenormalize, hz, Nat.add_sub_cancel_left, Nat.shiftLeft_eq, hidden_eq]
  constructor
  · rw [show w.manBits = bitLength u.man - 1 + z by simp only [WidthPolicy.sigBits] at hz; omega, pow_add]
    exact Nat.mul_le_mul_right _ hlo
  · rw [pow_add]
    exact Nat.mul_lt_mul_of_pos_right hhi (by positivity)

/-- R94: the value is unchanged. -/
theorem prenormalize_value (w : WidthPolicy) (u : Unpacked) :
    ((prenormalize w u).man : ℚ) * 2 ^ (prenormalize w u).exp = (u.man : ℚ) * 2 ^ u.exp := by
  simp only [prenormalize, Nat.shiftLeft_eq, Nat.cast_mul, Nat.cast_pow, Nat.cast_ofNat]
  rw [mul_assoc, ← zpow_natCast, ← zpow_add₀ two_ne_zero, add_sub_cancel]

/-- A nonzero pattern's magnitude from its prenormalized mantissa and exponent. -/
theorem magnitude_eq_prenormalize (w : WidthPolicy) (x : BitVec w.totalBits) :
    magnitude w x = ((prenormalize w (unpackFinite w x)).man : ℚ) *
      2 ^ ((prenormalize w (unpackFinite w x)).exp - (w.manBits : ℤ)) := by
  rw [magnitude_eq_unpackFinite, zpow_sub₀ two_ne_zero, zpow_sub₀ two_ne_zero, ← mul_div_assoc, ← mul_div_assoc,
    prenormalize_value]

/-- A nonzero pattern's prenormalized mantissa has exactly `p` bits. -/
theorem prenormalized_man_bounds {w : WidthPolicy} {x : BitVec w.totalBits} (h : kindOf w x ≠ .zero) :
    2 ^ w.manBits ≤ (prenormalize w (unpackFinite w x)).man ∧
      (prenormalize w (unpackFinite w x)).man < 2 ^ (w.manBits + 1) := by
  rw [← hidden_eq]
  exact prenormalize_man_bounds (unpackFinite_man_pos h) (unpackFinite_man_lt w x)

/-! ### MUL -/

/-- R195 to R197: the exact product of the prenormalized mantissas is rounded once. -/
theorem mulComputed_roundsTo {w : WidthPolicy} (s : Sign) {a b : BitVec w.totalBits}
    (ha : kindOf w a ≠ .zero) (hb : kindOf w b ≠ .zero) :
    ∃ y, mulComputed w s a b = .ok y ∧ RoundsTo w s (magnitude w a * magnitude w b) y := by
  obtain ⟨hm1, hm1'⟩ := prenormalized_man_bounds ha
  obtain ⟨hm2, hm2'⟩ := prenormalized_man_bounds hb
  rw [magnitude_eq_prenormalize w a, magnitude_eq_prenormalize w b]
  unfold mulComputed
  generalize prenormalize w (unpackFinite w a) = u1 at *
  generalize prenormalize w (unpackFinite w b) = u2 at *
  dsimp only
  have hman : 0 < 2 ^ w.manBits := by positivity
  have hfit : u1.man * u2.man < 2 ^ (w.sigBits + w.manBits + 1) := by
    have hp : w.sigBits + w.manBits + 1 = (w.manBits + 1) + (w.manBits + 1) := by
      simp only [WidthPolicy.sigBits]; ring
    rw [hp, pow_add]
    exact Nat.mul_lt_mul'' hm1' hm2'
  obtain ⟨y, hy, hround⟩ := nrp_roundsTo s (u1.exp + u2.exp) (JamsTo.exact (u1.man * u2.man))
    (Nat.mul_pos (by omega) (by omega)) hfit (manBits_pos w) (.inl rfl)
  refine ⟨y, hy, ?_⟩
  convert hround using 1
  have hexp : u1.exp + u2.exp - (w.manBits : ℤ) - w.manBits =
      (u1.exp - w.manBits) + (u2.exp - w.manBits) := by ring
  rw [hexp, zpow_add₀ two_ne_zero]
  push_cast
  ring

/-- On nonzero finite operands MUL takes the computed path (R190). -/
theorem mulBits_eq_computed {w : WidthPolicy} {a b : BitVec w.totalBits}
    (ha : (kindOf w a).isFinite = true) (hb : (kindOf w b).isFinite = true)
    (ha0 : kindOf w a ≠ .zero) (hb0 : kindOf w b ≠ .zero) :
    mulBits w a b = mulComputed w (signField w a ^^^ signField w b) a b := by
  simp [mulBits, isFinite_ne ha, isFinite_ne hb, ha0, hb0]

/-- Settles O49: on nonzero finite operands MUL is the computed path, whose exact product `nrp` rounds. -/
theorem mulRoundsCorrectly : Obligations.MulRoundsCorrectly := by
  intro w a b s ha hb ha0 hb0
  obtain ⟨y, hy, hround⟩ := mulComputed_roundsTo (signField w a ^^^ signField w b) ha0 hb0
  refine ⟨y, ?_, hround⟩
  simp [exec_eq_respond, answer, answerMul, mulBits_eq_computed ha hb ha0 hb0, hy, Instr.policy]

/-! ### DIV -/

/-- R215: one iteration divides a remainder below twice the divisor, its quotient bit `i` set or not. -/
theorem trialSubtract_eq {m2 i : ℕ} {v : QuotRem} (hrem : v.rem < 2 * m2) (hquot : 2 ^ (i + 1) ∣ v.quot) :
    trialSubtract m2 i v = { quot := v.quot + v.rem / m2 * 2 ^ i, rem := v.rem % m2 } := by
  unfold trialSubtract
  split_ifs with hge
  · have hdiv : v.rem / m2 = 1 := Nat.div_eq_of_lt_le (by omega) (by omega)
    have hmod : v.rem % m2 = v.rem - m2 := by
      rw [Nat.mod_eq_sub_mod hge, Nat.mod_eq_of_lt (by omega)]
    obtain ⟨c, hc⟩ := hquot
    have hbit : 2 ^ i < 2 ^ (i + 1) := Nat.pow_lt_pow_right one_lt_two (Nat.lt_succ_self i)
    rw [hdiv, hmod, one_mul, Nat.one_shiftLeft, hc, Nat.two_pow_add_eq_or_of_lt hbit]
  · rw [Nat.div_eq_of_lt (by omega), Nat.mod_eq_of_lt (by omega), zero_mul, add_zero]

/-- R216: iterations `i` down to 0 append the quotient of `rem * 2^i` and leave its remainder. -/
theorem longDivideFrom_eq {m2 : ℕ} (i : ℕ) {v : QuotRem} (hrem : v.rem < 2 * m2)
    (hquot : 2 ^ (i + 1) ∣ v.quot) :
    longDivideFrom m2 i v = { quot := v.quot + v.rem * 2 ^ i / m2, rem := v.rem * 2 ^ i % m2 } := by
  have hm2 : 0 < m2 := by omega
  induction i generalizing v with
  | zero => rw [longDivideFrom_zero, trialSubtract_eq hrem hquot]; simp
  | succ i ih =>
    have hsplit : v.rem * 2 ^ (i + 1) = (v.rem % m2) <<< 1 * 2 ^ i + m2 * (v.rem / m2 * 2 ^ (i + 1)) := by
      calc v.rem * 2 ^ (i + 1) = (v.rem % m2 + m2 * (v.rem / m2)) * 2 ^ (i + 1) := by rw [Nat.mod_add_div]
        _ = _ := by rw [Nat.shiftLeft_eq]; ring
    have hlt : (v.rem % m2) <<< 1 < 2 * m2 := by
      have := Nat.mod_lt v.rem hm2
      rw [Nat.shiftLeft_eq]; omega
    have hdvd : 2 ^ (i + 1) ∣ v.quot + v.rem / m2 * 2 ^ (i + 1) :=
      Nat.dvd_add ((pow_dvd_pow 2 (Nat.le_succ _)).trans hquot) (Nat.dvd_mul_left _ _)
    rw [longDivideFrom_succ, trialSubtract_eq hrem hquot, ih hlt hdvd, hsplit, Nat.add_mul_div_left _ _ hm2,
      Nat.add_mul_mod_self_left]
    simp only [QuotRem.mk.injEq, and_true]
    ring

/-- R216: the restoring loop computes the quotient and the remainder of `m1 * 2^(MB + 2)` by `m2`. -/
theorem longDivide_eq (w : WidthPolicy) {m1 m2 : ℕ} (h : m1 < 2 * m2) :
    longDivide w m1 m2 =
      { quot := m1 * 2 ^ (w.manBits + 2) / m2, rem := m1 * 2 ^ (w.manBits + 2) % m2 } := by
  rw [longDivide, longDivideFrom_eq _ h (dvd_zero _), zero_add]

/-- R217: appending the sticky bit below a quotient. -/
theorem append_sticky_eq (Q r : ℕ) :
    (Q <<< 1 ||| if r ≠ 0 then 1 else 0) = 2 * Q + if r ≠ 0 then 1 else 0 := by
  have hbit : (if r ≠ 0 then 1 else 0) < 2 ^ 1 := by split_ifs <;> decide
  rw [← Nat.shiftLeft_add_eq_or_of_lt hbit, Nat.shiftLeft_eq]
  ring

/-- R217, R218: a quotient with its sticky bit appended stands for twice the exact quotient. -/
theorem append_sticky_jamsTo (n : ℕ) {m : ℕ} (hm : 0 < m) :
    JamsTo (2 * ((n : ℚ) / m)) ((n / m) <<< 1 ||| if n % m ≠ 0 then 1 else 0) := by
  have hmq : (0 : ℚ) < m := by exact_mod_cast hm
  have hsplit : (n : ℚ) / m = (n / m : ℕ) + (n % m : ℕ) / m := by
    rw [div_eq_iff hmq.ne', add_mul, div_mul_cancel₀ _ hmq.ne', mul_comm]
    exact_mod_cast (Nat.div_add_mod n m).symm
  rw [append_sticky_eq, hsplit]
  split_ifs with hrem
  · have hpos : (0 : ℚ) < (n % m : ℕ) / m := by
      have : 0 < n % m := Nat.pos_of_ne_zero hrem
      positivity
    have hlt : ((n % m : ℕ) : ℚ) / m < 1 := by
      rw [div_lt_one hmq]; exact_mod_cast Nat.mod_lt n hm
    refine .inr ⟨by omega, ?_, ?_⟩ <;> push_cast <;> linarith
  · rw [not_not] at hrem
    left
    rw [hrem]
    push_cast
    ring

/-- R216: the quotient of two `p`-bit mantissas shifted by `MB + 2` has `MB + 2` or `MB + 3` bits. -/
theorem quotient_bounds {M m1 m2 : ℕ} (hm1 : 2 ^ M ≤ m1) (hm1' : m1 < 2 ^ (M + 1)) (hm2 : 2 ^ M ≤ m2)
    (hm2' : m2 < 2 ^ (M + 1)) :
    2 ^ (M + 1) ≤ m1 * 2 ^ (M + 2) / m2 ∧ m1 * 2 ^ (M + 2) / m2 < 2 ^ (M + 3) := by
  have hpos : 0 < m2 := lt_of_lt_of_le (by positivity) hm2
  rw [Nat.le_div_iff_mul_le hpos, Nat.div_lt_iff_lt_mul hpos]
  constructor
  · calc 2 ^ (M + 1) * m2 ≤ 2 ^ (M + 1) * 2 ^ (M + 1) := by gcongr
      _ = 2 ^ M * 2 ^ (M + 2) := by ring
      _ ≤ m1 * 2 ^ (M + 2) := by gcongr
  · calc m1 * 2 ^ (M + 2) < 2 ^ (M + 1) * 2 ^ (M + 2) := by gcongr
      _ = 2 ^ (M + 3) * 2 ^ M := by ring
      _ ≤ 2 ^ (M + 3) * m2 := by gcongr

/-- R217 to R219: the quotient of the prenormalized mantissas with its sticky bit is rounded once. -/
theorem divComputed_roundsTo {w : WidthPolicy} (s : Sign) {a b : BitVec w.totalBits}
    (ha : kindOf w a ≠ .zero) (hb : kindOf w b ≠ .zero) :
    ∃ y, divComputed w s a b = .ok y ∧ RoundsTo w s (magnitude w a / magnitude w b) y := by
  obtain ⟨hm1, hm1'⟩ := prenormalized_man_bounds ha
  obtain ⟨hm2, hm2'⟩ := prenormalized_man_bounds hb
  rw [magnitude_eq_prenormalize w a, magnitude_eq_prenormalize w b]
  unfold divComputed
  generalize prenormalize w (unpackFinite w a) = u1 at *
  generalize prenormalize w (unpackFinite w b) = u2 at *
  dsimp only
  have hpos2 : 0 < u2.man := lt_of_lt_of_le (by positivity) hm2
  rw [longDivide_eq w (by rw [pow_succ] at hm1'; omega)]
  have hjam := append_sticky_jamsTo (u1.man * 2 ^ (w.manBits + 2)) hpos2
  have hsticky := append_sticky_eq (u1.man * 2 ^ (w.manBits + 2) / u2.man)
    (u1.man * 2 ^ (w.manBits + 2) % u2.man)
  obtain ⟨hQlo, hQhi⟩ := quotient_bounds hm1 hm1' hm2 hm2'
  generalize u1.man * 2 ^ (w.manBits + 2) / u2.man = Q at *
  generalize (Q <<< 1 ||| if u1.man * 2 ^ (w.manBits + 2) % u2.man ≠ 0 then 1 else 0) = X at *
  have hX : 2 * Q ≤ X ∧ X ≤ 2 * Q + 1 := by rw [hsticky]; split_ifs <;> omega
  have hroom : 2 ^ (w.sigBits + 1) ≤ X := by
    simp only [WidthPolicy.sigBits]; omega
  have hfit : X < 2 ^ (w.sigBits + guardBits + 1) := by
    have hwide : w.sigBits + guardBits + 1 = w.manBits + 3 + 2 := by simp only [WidthPolicy.sigBits, guardBits]
    rw [hwide, pow_add]; omega
  obtain ⟨y, hy, hround⟩ := nrp_roundsTo s (u1.exp - u2.exp) hjam (lt_of_lt_of_le (by positivity) hroom) hfit
    (by decide) (.inr hroom)
  refine ⟨y, hy, ?_⟩
  convert hround using 1
  have hscale : (2 : ℚ) ^ (u1.exp - u2.exp - (w.manBits : ℤ) - (guardBits : ℤ)) * 2 ^ (w.manBits + 3) =
      2 ^ (u1.exp - (w.manBits : ℤ)) / 2 ^ (u2.exp - (w.manBits : ℤ)) := by
    rw [← zpow_natCast, ← zpow_add₀ two_ne_zero, ← zpow_sub₀ two_ne_zero]
    congr 1
    push_cast [guardBits]
    ring
  rw [mul_div_mul_comm, ← hscale]
  push_cast
  ring

/-- On nonzero finite operands DIV takes the computed path (R210). -/
theorem divBits_eq_computed {w : WidthPolicy} {a b : BitVec w.totalBits}
    (ha : (kindOf w a).isFinite = true) (hb : (kindOf w b).isFinite = true)
    (ha0 : kindOf w a ≠ .zero) (hb0 : kindOf w b ≠ .zero) :
    divBits w a b = divComputed w (signField w a ^^^ signField w b) a b := by
  simp [divBits, isFinite_ne ha, isFinite_ne hb, ha0, hb0]

/-- Settles O54: on nonzero finite operands DIV is the computed path, whose quotient and sticky bit stand for the
exact quotient that `nrp` rounds. -/
theorem divRoundsCorrectly : Obligations.DivRoundsCorrectly := by
  intro w a b s ha hb ha0 hb0
  obtain ⟨y, hy, hround⟩ := divComputed_roundsTo (signField w a ^^^ signField w b) ha0 hb0
  refine ⟨y, ?_, hround⟩
  simp [exec_eq_respond, answer, answerDiv, divBits_eq_computed ha hb ha0 hb0, hy, Instr.policy]

/-! ### signed magnitudes -/

/-- The number of sign `s` and magnitude `x`. -/
def withSign (s : Sign) (x : ℚ) : ℚ := if s = 1 then -x else x

theorem valueOf_eq_withSign (w : WidthPolicy) (x : BitVec w.totalBits) :
    valueOf w x = withSign (signField w x) (magnitude w x) := rfl

theorem withSign_mul (s : Sign) (x u : ℚ) : withSign s (x * u) = withSign s x * u := by
  unfold withSign; split_ifs <;> ring

@[simp] theorem withSign_zero (s : Sign) : withSign s 0 = 0 := by simp [withSign]

theorem abs_withSign (s : Sign) {x : ℚ} (hx : 0 ≤ x) : |withSign s x| = x := by
  unfold withSign; split_ifs <;> simp [abs_of_nonneg hx]

/-- A positive magnitude's sign is read back. -/
theorem signOfRat_withSign (s : Sign) {x : ℚ} (hx : 0 < x) : signOfRat (withSign s x) = s := by
  unfold withSign signOfRat
  split_ifs with hs hneg hneg
  · exact hs.symm
  · linarith
  · linarith
  · exact ((BitVec.eq_zero_or_eq_one s).resolve_right hs).symm

theorem eq_one_iff_of_ne : ∀ {s1 s2 : Sign}, s1 ≠ s2 → (s2 = 1 ↔ s1 ≠ 1) := by decide

/-- Different signs are opposite. -/
theorem withSign_of_ne {s1 s2 : Sign} (h : s1 ≠ s2) (x : ℚ) : withSign s2 x = -withSign s1 x := by
  simp only [withSign, eq_one_iff_of_ne h, ne_eq, ite_not]
  split_ifs <;> ring

/-- A nonzero finite pattern is its own value correctly rounded. -/
theorem roundsTo_valueOf_self {w : WidthPolicy} {x : BitVec w.totalBits} (h : (kindOf w x).isFinite = true)
    (h0 : kindOf w x ≠ .zero) : RoundsTo w (signOfRat (valueOf w x)) |valueOf w x| x := by
  have hpos := magnitude_pos h0
  rw [valueOf_eq_withSign, signOfRat_withSign _ hpos, abs_withSign _ hpos.le]
  exact roundsTo_self h

/-! ### alignment and combination (spec/44_adder_sub.md R168, R169) -/

/-- Shifting by more than all the bits jams to the same as shifting by all of them. -/
theorem jamShift_min {X K : ℕ} (hX : X < 2 ^ K) (d : ℕ) : jamShift X (min d K) = jamShift X d := by
  rcases le_total d K with hd | hd
  · rw [min_eq_left hd]
  · have hXd : X < 2 ^ d := hX.trans_le (Nat.pow_le_pow_right two_pos hd)
    rw [min_eq_right hd]
    rcases eq_or_ne K 0 with rfl | hK
    · obtain rfl : X = 0 := by simpa using hX
      simp
    · have hd0 : d ≠ 0 := by omega
      simp only [jamShift, hK, hd0, if_false, Nat.shiftRight_eq_div_pow, Nat.div_eq_of_lt hX,
        Nat.div_eq_of_lt hXd, Nat.mod_eq_of_lt hX, Nat.mod_eq_of_lt hXd]

/-- A jammed shift is below a power of two, other than 1, that bounds the plain shift. -/
theorem jamShift_lt {X d n : ℕ} (hX : X < 2 ^ (d + n)) (hn : n ≠ 0) : jamShift X d < 2 ^ n := by
  rcases eq_or_ne d 0 with rfl | hd
  · simpa using hX
  · obtain ⟨k, rfl⟩ := Nat.exists_eq_succ_of_ne_zero hn
    have hhalf : jamShift X d / 2 < 2 ^ k := by
      rw [jamShift_div_two X d hd, Nat.div_lt_iff_lt_mul (by positivity), ← pow_add]
      exact hX.trans_eq (by congr 1; omega)
    rw [Nat.succ_eq_add_one, pow_succ]
    omega

namespace JamsTo

variable {t : ℚ} {A B : ℕ}

/-- Adding an even number keeps the even neighbours. -/
theorem even_add (h : JamsTo t B) (hA : A % 2 = 0) : JamsTo (A + t) (A + B) := by
  obtain rfl | ⟨hodd, hlo, hhi⟩ := h
  · left; push_cast; rfl
  · right; push_cast; exact ⟨by omega, by linarith, by linarith⟩

/-- Subtracting from an even number reflects the even neighbours. -/
theorem even_sub (h : JamsTo t B) (hA : A % 2 = 0) (hle : B ≤ A) : JamsTo (A - t) (A - B) := by
  obtain rfl | ⟨hodd, hlo, hhi⟩ := h
  · left; push_cast [hle]; rfl
  · right; push_cast [hle]; exact ⟨by omega, by linarith, by linarith⟩

/-- Subtracting an even number keeps the even neighbours. -/
theorem sub_even (h : JamsTo t B) (hA : A % 2 = 0) (hle : A ≤ B) : JamsTo (t - A) (B - A) := by
  obtain rfl | ⟨hodd, hlo, hhi⟩ := h
  · left; push_cast [hle]; rfl
  · right; push_cast [hle]; exact ⟨by omega, by linarith, by linarith⟩

end JamsTo

/-- R169: the combined mantissa is between the difference and the sum of the aligned ones. -/
theorem combineAligned_bounds (s1 s2 : Sign) (A B : ℕ) :
    A - B ≤ (combineAligned s1 s2 A B).2 ∧ (combineAligned s1 s2 A B).2 ≤ A + B := by
  unfold combineAligned
  split_ifs <;> dsimp only <;> omega

/-- R169: combining an even mantissa with one that stands for `t` gives the sign and a mantissa that stands for the
magnitude of the exact sum, exact where the second mantissa is. -/
theorem combineAligned_jamsTo (s1 s2 : Sign) {A B : ℕ} {t : ℚ} (hA : A % 2 = 0) (h : JamsTo t B) :
    ∃ x, JamsTo x (combineAligned s1 s2 A B).2 ∧
      withSign (combineAligned s1 s2 A B).1 x = withSign s1 A + withSign s2 t ∧
      (t = B → x = (combineAligned s1 s2 A B).2) := by
  unfold combineAligned
  split_ifs with hs hle
  · subst hs
    refine ⟨A + t, h.even_add hA, ?_, by rintro rfl; push_cast; rfl⟩
    unfold withSign; split_ifs <;> ring
  · refine ⟨A - t, h.even_sub hA hle, ?_, by rintro rfl; push_cast [hle]; rfl⟩
    rw [withSign_of_ne hs]
    unfold withSign; split_ifs <;> ring
  · have hle' : A ≤ B := (Nat.lt_of_not_ge hle).le
    refine ⟨t - A, h.sub_even hA hle', ?_, by rintro rfl; push_cast [hle']; rfl⟩
    rw [withSign_of_ne (Ne.symm hs) A]
    unfold withSign; split_ifs <;> ring

/-! ### ADD -/

/-- The number an unpacked operand denotes (spec/40_bit_unpacker.md R93). -/
def Unpacked.value (w : WidthPolicy) (u : Unpacked) : ℚ :=
  withSign u.sign ((u.man : ℚ) * 2 ^ (u.exp - (w.manBits : ℤ)))

theorem valueOf_eq_unpackFinite (w : WidthPolicy) (x : BitVec w.totalBits) :
    valueOf w x = (unpackFinite w x).value w := by
  rw [valueOf_eq_withSign, magnitude_eq_unpackFinite, Unpacked.value, unpackFinite_sign]

/-- R168: an operand's number in guard-bit units at an exponent `d` above its own. -/
theorem Unpacked.value_aligned {w : WidthPolicy} (u : Unpacked) {d : ℕ} {e : ℤ} (h : u.exp + d = e) :
    u.value w = withSign u.sign (((u.man <<< guardBits : ℕ) : ℚ) / 2 ^ d) *
      2 ^ (e - (w.manBits : ℤ) - (guardBits : ℤ)) := by
  have hexp : e - (w.manBits : ℤ) - guardBits = u.exp - w.manBits + d - guardBits := by omega
  rw [Unpacked.value, ← withSign_mul, hexp, zpow_sub₀ two_ne_zero _ (guardBits : ℤ), zpow_add₀ two_ne_zero,
    zpow_natCast, zpow_natCast, Nat.shiftLeft_eq]
  push_cast
  field_simp

/-- R168: the mantissa of the operand of the smaller exponent, as `addOrdered` aligns it. -/
def alignedMan (w : WidthPolicy) (m d : ℕ) : ℕ := jamShift (m <<< guardBits) (min d (w.sigBits + guardBits))

theorem shiftLeft_guardBits_lt {w : WidthPolicy} {m : ℕ} (hm : m < 2 ^ w.sigBits) :
    m <<< guardBits < 2 ^ (w.sigBits + guardBits) := by
  rw [Nat.shiftLeft_eq, pow_add]
  exact Nat.mul_lt_mul_of_pos_right hm (by positivity)

/-- R168: it stands for the mantissa at the larger exponent. -/
theorem alignedMan_jamsTo {w : WidthPolicy} {m : ℕ} (hm : m < 2 ^ w.sigBits) (d : ℕ) :
    JamsTo (((m <<< guardBits : ℕ) : ℚ) / 2 ^ d) (alignedMan w m d) := by
  rw [alignedMan, jamShift_min (shiftLeft_guardBits_lt hm)]
  exact jamShift_jamsTo _ d

theorem alignedMan_lt {w : WidthPolicy} {m : ℕ} (hm : m < 2 ^ w.sigBits) (d : ℕ) :
    alignedMan w m d < 2 ^ (w.sigBits + guardBits) := by
  rw [alignedMan, jamShift_min (shiftLeft_guardBits_lt hm)]
  refine jamShift_lt ((shiftLeft_guardBits_lt hm).trans_le (Nat.pow_le_pow_right two_pos (by omega)))
    (by simp [guardBits])

/-- Alignment loses bits only when it shifts by more than the guard bits, and then less than `MB` bits are left. -/
theorem alignedMan_exact_or_small {w : WidthPolicy} {m : ℕ} (hm : m < 2 ^ w.sigBits) (d : ℕ) :
    ((m <<< guardBits : ℕ) : ℚ) / 2 ^ d = alignedMan w m d ∨ d ≠ 0 ∧ alignedMan w m d < 2 ^ w.manBits := by
  have hfit := shiftLeft_guardBits_lt hm
  rw [alignedMan, jamShift_min hfit]
  rcases le_or_gt d guardBits with hd | hd
  · have hdvd : 2 ^ d ∣ m <<< guardBits := by
      rw [Nat.shiftLeft_eq]; exact (pow_dvd_pow 2 hd).mul_left m
    left
    rw [jamShift_exact (Nat.mod_eq_zero_of_dvd hdvd), Nat.cast_div hdvd (by positivity)]
    push_cast; rfl
  · refine .inr ⟨by omega, jamShift_lt (hfit.trans_le (Nat.pow_le_pow_right two_pos ?_)) ?_⟩
    · simp only [WidthPolicy.sigBits]; omega
    · have := manBits_pos w; omega

/-- Lines A1 and A2 on the aligned mantissa (R168, R169). -/
theorem addOrdered_eq (w : WidthPolicy) (u1 u2 : Unpacked) {c : Sign × ℕ}
    (hc : combineAligned u1.sign u2.sign (u1.man <<< guardBits)
      (alignedMan w u2.man (u1.exp - u2.exp).toNat) = c) :
    addOrdered w u1 u2 = if c.2 = 0 then .ok (zeroBits w 0) else nrp w c.1 u1.exp c.2 guardBits := by
  subst hc; rfl

/-- R168 to R171: on operands ordered by exponent, the larger with its implicit bit unless both exponents are equal,
a nonzero exact sum is rounded once. -/
theorem addOrdered_roundsTo {w : WidthPolicy} {u1 u2 : Unpacked} (hexp : u2.exp ≤ u1.exp)
    (hman1 : u1.man < 2 ^ w.sigBits) (hman2 : u2.man < 2 ^ w.sigBits)
    (hnormal : u2.exp = u1.exp ∨ w.hidden ≤ u1.man) (hne : u1.value w + u2.value w ≠ 0) :
    ∃ y, addOrdered w u1 u2 = .ok y ∧
      RoundsTo w (signOfRat (u1.value w + u2.value w)) |u1.value w + u2.value w| y := by
  obtain ⟨d, hd⟩ := Int.eq_ofNat_of_zero_le (sub_nonneg.mpr hexp)
  have hAeven : (u1.man <<< guardBits) % 2 = 0 := by rw [Nat.shiftLeft_eq, guardBits]; omega
  have hAlt := shiftLeft_guardBits_lt hman1
  have hBlt := alignedMan_lt hman2 d
  have hsmall := alignedMan_exact_or_small hman2 d
  obtain ⟨t, ht, hval, hexact⟩ := combineAligned_jamsTo u1.sign u2.sign hAeven (alignedMan_jamsTo hman2 d)
  obtain ⟨hlo, hhi⟩ := combineAligned_bounds u1.sign u2.sign (u1.man <<< guardBits) (alignedMan w u2.man d)
  have hadd := addOrdered_eq w u1 u2 rfl
  rw [hd, Int.toNat_natCast] at hadd
  generalize combineAligned u1.sign u2.sign (u1.man <<< guardBits) (alignedMan w u2.man d) = c at *
  have hsum : u1.value w + u2.value w =
      withSign c.1 (t * 2 ^ (u1.exp - (w.manBits : ℤ) - (guardBits : ℤ))) := by
    rw [u1.value_aligned (d := 0) (add_zero _), u2.value_aligned (by omega : u2.exp + (d : ℤ) = u1.exp), pow_zero,
      div_one, ← add_mul, ← hval, withSign_mul]
  have hunit : (0 : ℚ) < 2 ^ (u1.exp - (w.manBits : ℤ) - (guardBits : ℤ)) := by positivity
  have htpos : 0 < t := lt_of_le_of_ne ht.nonneg fun h0 => hne (by rw [hsum, ← h0]; simp)
  have hpos : 0 < c.2 := ht.pos_iff.mp htpos
  have hroom : t = c.2 ∨ 2 ^ (w.sigBits + 1) ≤ c.2 := by
    refine hsmall.imp hexact fun ⟨hd0, hB⟩ => ?_
    have hhid : 2 ^ w.manBits ≤ u1.man := hidden_eq w ▸ hnormal.resolve_left (by omega)
    have hwide : 2 ^ (w.sigBits + 1) = 4 * 2 ^ w.manBits := by simp only [WidthPolicy.sigBits]; ring
    rw [Nat.shiftLeft_eq, guardBits] at hlo
    omega
  have hfit : c.2 < 2 ^ (w.sigBits + guardBits + 1) := by rw [pow_succ]; omega
  rw [hadd, if_neg hpos.ne', hsum, signOfRat_withSign _ (by positivity), abs_withSign _ (by positivity)]
  exact nrp_roundsTo c.1 u1.exp ht hpos hfit (by decide) hroom

/-- R167: the computed path rounds a nonzero exact sum once. -/
theorem addComputed_roundsTo {w : WidthPolicy} {a b : BitVec w.totalBits} (hne : valueOf w a + valueOf w b ≠ 0) :
    ∃ y, addComputed w a b = .ok y ∧
      RoundsTo w (signOfRat (valueOf w a + valueOf w b)) |valueOf w a + valueOf w b| y := by
  have hordered : ∀ x z, (unpackFinite w z).exp ≤ (unpackFinite w x).exp →
      (unpackFinite w z).exp = (unpackFinite w x).exp ∨ w.hidden ≤ (unpackFinite w x).man := fun x z hle => by
    rcases unpackFinite_exp_cases w x with h | h
    · exact .inl (le_antisymm hle (h ▸ minExp_le_unpackFinite_exp w z))
    · exact .inr h.2
  have hlt := unpackFinite_man_lt w
  simp only [addComputed]
  split_ifs with hlt'
  · rw [add_comm] at hne ⊢
    rw [valueOf_eq_unpackFinite, valueOf_eq_unpackFinite] at hne ⊢
    exact addOrdered_roundsTo hlt'.le (hlt b) (hlt a) (hordered b a hlt'.le) hne
  · rw [valueOf_eq_unpackFinite, valueOf_eq_unpackFinite] at hne ⊢
    exact addOrdered_roundsTo (not_lt.mp hlt') (hlt a) (hlt b) (hordered a b (not_lt.mp hlt')) hne

/-- A Zero denotes 0. -/
theorem valueOf_of_zero {w : WidthPolicy} {x : BitVec w.totalBits} (h : kindOf w x = .zero) : valueOf w x = 0 := by
  rw [valueOf_eq_withSign, magnitude_of_zero h, withSign_zero]

/-- R160: on finite operands with a nonzero sum, rows T7 and T8 give the nonzero operand back and the computed path
rounds. -/
theorem addBits_roundsTo {w : WidthPolicy} {a b : BitVec w.totalBits} (ha : (kindOf w a).isFinite = true)
    (hb : (kindOf w b).isFinite = true) (hne : valueOf w a + valueOf w b ≠ 0) :
    ∃ y, addBits w a b = .ok y ∧
      RoundsTo w (signOfRat (valueOf w a + valueOf w b)) |valueOf w a + valueOf w b| y := by
  by_cases ha0 : kindOf w a = .zero <;> by_cases hb0 : kindOf w b = .zero
  · exact absurd (by rw [valueOf_of_zero ha0, valueOf_of_zero hb0, add_zero]) hne
  · rw [valueOf_of_zero ha0, zero_add]
    exact ⟨b, by simp [addBits, isFinite_ne hb, ha0, hb0], roundsTo_valueOf_self hb hb0⟩
  · rw [valueOf_of_zero hb0, add_zero]
    exact ⟨a, by simp [addBits, isFinite_ne ha, ha0, hb0], roundsTo_valueOf_self ha ha0⟩
  · have hcomputed : addBits w a b = addComputed w a b := by
      simp [addBits, isFinite_ne ha, isFinite_ne hb, ha0, hb0]
    rw [hcomputed]
    exact addComputed_roundsTo hne

/-- Settles O40: ADD is `addBits`, whose aligned and combined mantissas stand for the exact sum that `nrp` rounds. -/
theorem addRoundsCorrectly : Obligations.AddRoundsCorrectly := by
  intro w a b s ha hb hne
  obtain ⟨y, hy, hround⟩ := addBits_roundsTo ha hb hne
  refine ⟨y, ?_, hround⟩
  simp [exec_eq_respond, answer, answerAdd, adderSub, hy, Instr.policy]

end Sys2Proof.Machine

/-!
What a line does to the state (spec/10_state.md R20, R30, R44, R47, R274; spec/60_exceptions.md R260 to R267).

Everything here turns on one inversion: `faultOf` names the fault the rules give a line, and a line either raises it or
drives a response that is no fault (`exec_of_faultOf_some`, `exec_of_faultOf_none`).
-/

namespace Sys2Proof.Machine

/-! ### which lines fault -/

/-- The fault the rules give a line: reserved selects (R261) and a ROUNDSHIFT out of range (R263), no other (R262). -/
def faultOf : Instr → Option FaultCode
  | .reserved13 _ | .reserved14 _ | .reserved15 _ => some .illegalOp
  | .roundShift w _ n => if w.manBits + 1 < n.toNat then some .rsShiftRange else none
  | .add _ _ _ | .sub _ _ _ | .mul _ _ _ | .div _ _ _ | .xorBits _ _ _ | .andBits _ _ _ | .fromBits _ _
  | .toBits _ _ | .decompose _ _ | .compose _ _ _ _ | .classify _ _ | .flipSign _ _ => none

/-- A reserved select raises `ILLEGAL_OP`. -/
theorem faultOf_of_reserved {i : Instr} (h : i.selectsOperation = false) : faultOf i = some .illegalOp := by
  cases i with
  | reserved13 | reserved14 | reserved15 => rfl
  | _ => cases h

/-- A shift out of range raises `RS_SHIFT_RANGE`. -/
theorem faultOf_roundShift {w : WidthPolicy} {n : ShiftAmount} (h : w.manBits + 1 < n.toNat)
    (man : BitVec w.extBits) : faultOf (.roundShift w man n) = some .rsShiftRange := if_pos h

/-- A line that meets the requester's obligations raises no fault (R269). -/
theorem faultOf_of_wellFormed {i : Instr} (h : WellFormed i = true) : faultOf i = none := by
  cases i with
  | reserved13 | reserved14 | reserved15 => cases h
  | roundShift w man n =>
    have hn : n.toNat ≤ w.manBits + 1 := by
      simpa [WellFormed, Instr.selectsOperation, shiftInRange] using h
    exact if_neg (not_lt.mpr hn)
  | _ => rfl

/-! ### the operators return (R262) -/

theorem addBits_returns (w : WidthPolicy) (a b : BitVec w.totalBits) : ∃ y, addBits w a b = .ok y := by
  simp only [addBits]
  split_ifs <;> simp [addComputed_returns]

theorem mulBits_returns (w : WidthPolicy) (a b : BitVec w.totalBits) : ∃ y, mulBits w a b = .ok y := by
  simp only [mulBits]
  split_ifs <;> simp [mulComputed_returns]

theorem divBits_returns (w : WidthPolicy) (a b : BitVec w.totalBits) : ∃ y, divBits w a b = .ok y := by
  simp only [divBits]
  split_ifs <;> simp [divComputed_returns]

/-- A shift in range is answered with the shifted mantissa. -/
theorem answerRoundShift_returns {w : WidthPolicy} {n : ShiftAmount} (h : n.toNat ≤ w.manBits + 1)
    (man : BitVec w.extBits) : ∃ x e, answerRoundShift w man n = .ok (.shifted x e) := by
  by_cases h0 : n.toNat = 0
  · exact ⟨_, _, by rw [answerRoundShift, h0, roundShift_by_zero]; rfl⟩
  · exact ⟨_, _, by rw [answerRoundShift, roundShift_in_range h0 h]; rfl⟩

/-- What is returned on `y` is a response without a fault. -/
theorem onY_returns {w : WidthPolicy} {r : Except FaultCode (BitVec w.totalBits)} (h : ∃ y, r = .ok y) :
    ∃ o, onY r = .ok o ∧ o.faultPort = 0 := by
  obtain ⟨y, rfl⟩ := h
  exact ⟨.value y, rfl, rfl⟩

/-! ### a line raises its fault or drives a response -/

theorem answer_of_faultOf_some {i : Instr} {c : FaultCode} (h : faultOf i = some c) : answer i = .error c := by
  cases i with
  | reserved13 | reserved14 | reserved15 => cases h; rfl
  | roundShift w man n =>
    simp only [faultOf, Option.ite_none_right_eq_some, Option.some.injEq] at h
    obtain ⟨hn, rfl⟩ := h
    simp only [answer, answerRoundShift, roundShift_out_of_range hn]
    rfl
  | _ => cases h

theorem answer_of_faultOf_none {i : Instr} (h : faultOf i = none) :
    ∃ o, answer i = .ok o ∧ o.faultPort = 0 := by
  cases i with
  | add w a b => exact onY_returns (addBits_returns w a b)
  | sub w a b => exact onY_returns (addBits_returns w a (flipSignBits w b))
  | mul w a b => exact onY_returns (mulBits_returns w a b)
  | div w a b => exact onY_returns (divBits_returns w a b)
  | xorBits | andBits | fromBits | toBits | compose | flipSign => exact onY_returns ⟨_, rfl⟩
  | decompose | classify => exact ⟨_, rfl, rfl⟩
  | roundShift w man n =>
    have hn : n.toNat ≤ w.manBits + 1 := by simpa [faultOf] using h
    obtain ⟨x, e, hx⟩ := answerRoundShift_returns hn man
    exact ⟨_, hx, rfl⟩
  | reserved13 | reserved14 | reserved15 => cases h

theorem exec_of_faultOf_some {i : Instr} {c : FaultCode} (h : faultOf i = some c) (s : State) :
    exec i s = .next (s.raiseFault i.policy c) := by
  rw [exec_eq_respond, answer_of_faultOf_some h, respond_error]

theorem exec_of_faultOf_none {i : Instr} (h : faultOf i = none) (s : State) :
    ∃ o, exec i s = .next (s.drive i.policy o) ∧ o.faultPort = 0 := by
  obtain ⟨o, ho, hport⟩ := answer_of_faultOf_none h
  exact ⟨o, by rw [exec_eq_respond, ho, respond_ok], hport⟩

/-! ### frame, determinism, noninterference -/

/-- Settles O6: the ports by `exec_shows`, the mark by whether the line raises a fault. -/
theorem frameOfEveryLine : Obligations.FrameOfEveryLine := by
  intro i s t h
  obtain ⟨-, hsel, hin, hother⟩ := exec_shows h
  refine ⟨hsel, hin .binary32, hin .binary64, hother, ?_⟩
  cases hf : faultOf i with
  | some c =>
    rw [exec_of_faultOf_some hf] at h
    cases h
    simp
  | none =>
    obtain ⟨o, ho, hport⟩ := exec_of_faultOf_none hf s
    rw [ho] at h
    cases h
    cases o with
    | fault c => cases hport
    | _ => simp

/-- Settles O7: the response is what `answer i` returns or raises, and no state occurs in it. -/
theorem sameLineSameResponse : Obligations.SameLineSameResponse := by
  intro i s s' t t' h h'
  obtain ⟨hshown, -⟩ := exec_shows h
  obtain ⟨hshown', -⟩ := exec_shows h'
  exact hshown.trans hshown'.symm

/-- There are two instances only. -/
theorem eq_or_eq_of_policy_ne : ∀ {w w' : WidthPolicy}, w ≠ w' → ∀ v, v = w ∨ v = w' := by
  rintro (_ | _) (_ | _) h (_ | _) <;> simp at h ⊢

/-- After two lines for different instances both show the answer to their own line, and no input has changed. -/
theorem exec_exec_shows {i j : Instr} {s s1 s2 : State} (hne : i.policy ≠ j.policy) (hi : exec i s = .next s1)
    (hj : exec j s1 = .next s2) :
    s2.outputs i.policy = shownBy (answer i) ∧ s2.outputs j.policy = shownBy (answer j) ∧
      ∀ w, s2.inputs w = s.inputs w := by
  obtain ⟨hshown, -, hin, -⟩ := exec_shows hi
  obtain ⟨hshown', -, hin', hother⟩ := exec_shows hj
  exact ⟨(hother _ hne).trans hshown, hshown', fun w => (hin' w).trans (hin w)⟩

/-- Settles O9: in either order both instances end with the answer to their own line. -/
theorem instancesDoNotInterfere : Obligations.InstancesDoNotInterfere := by
  intro i j s s1 s2 t1 t2 hne hi hj hj' hi' w
  obtain ⟨hsi, hsj, hsin⟩ := exec_exec_shows hne hi hj
  obtain ⟨htj, hti, htin⟩ := exec_exec_shows hne.symm hj' hi'
  refine ⟨?_, (hsin w).trans (htin w).symm⟩
  obtain rfl | rfl := eq_or_eq_of_policy_ne hne w
  · exact hsi.trans hti.symm
  · exact hsj.trans htj.symm

/-! ### runs -/

/-- A line's encoding decodes to the line: for each constructor the bits of its select lead back to it (R69, R72). -/
@[simp] theorem decode_encode (i : Instr) : decode i.policy (encode i) = i := by
  cases i <;> simp [decode, encode, Instr.policy]

@[simp] theorem State.issue_faultMark (s : State) (i : Instr) : (s.issue i).faultMark = s.faultMark := by
  simp [issue]

/-- What is pending after a request is presented is the line the request decodes to. -/
@[simp] theorem State.present_pendingLine (s : State) (w : WidthPolicy) (r : Request w) :
    (s.present w r).pendingLine = decode w r := by
  have hsel : ∀ v, (s.present w r).sel = v →
      (s.present w r).pendingLine = decode v ((s.present w r).inputs v) := by
    rintro _ rfl
    rfl
  rw [hsel w (present_sel s w r), present_inputs]

/-- From an unmarked state the step after a line is issued runs that line (R67, R74). -/
theorem step_issue {s : State} (hs : s.faultMark = none) (i : Instr) : step (s.issue i) = exec i (s.issue i) := by
  have hpending : (s.issue i).pendingLine = i := by simp [State.issue]
  simp [step, hs, hpending]

/-- A run goes on past a line that raises no fault, from a state still unmarked. -/
theorem runLines_cons_of_no_fault {i : Instr} (hi : faultOf i = none) {s : State} (hs : s.faultMark = none)
    (rest : List Instr) : ∃ t, t.faultMark = none ∧ runLines (i :: rest) s = runLines rest t := by
  obtain ⟨o, ho, -⟩ := exec_of_faultOf_none hi (s.issue i)
  exact ⟨(s.issue i).drive i.policy o, by simp [hs], by simp [runLines, step_issue hs, ho, hs]⟩

/-- A run ends at a line that raises a fault, with that fault. -/
theorem runLines_cons_of_fault {i : Instr} {c : FaultCode} (hi : faultOf i = some c) {s : State}
    (hs : s.faultMark = none) (rest : List Instr) : runLines (i :: rest) s = .fault (.runEnded c) := by
  simp [runLines, step_issue hs, exec_of_faultOf_some hi, hs]

/-- A run goes on past any list of lines that raise no fault. -/
theorem runLines_append_of_no_fault {before : List Instr} (hbefore : ∀ j ∈ before, faultOf j = none) {s : State}
    (hs : s.faultMark = none) (rest : List Instr) :
    ∃ t, t.faultMark = none ∧ runLines (before ++ rest) s = runLines rest t := by
  induction before generalizing s with
  | nil => exact ⟨s, hs, rfl⟩
  | cons j js ih =>
    obtain ⟨hj, hjs⟩ := List.forall_mem_cons.mp hbefore
    obtain ⟨s', hs', hrun⟩ := runLines_cons_of_no_fault hj hs (js ++ rest)
    obtain ⟨t, ht, hrun'⟩ := ih hjs hs'
    exact ⟨t, ht, hrun.trans hrun'⟩

/-- A run reports the fault of the first line that raises one, whatever follows (R30, R267). -/
theorem runLines_stops_at_first_fault {before : List Instr} (hbefore : ∀ j ∈ before, faultOf j = none) {i : Instr}
    {c : FaultCode} (hi : faultOf i = some c) {s : State} (hs : s.faultMark = none) (after : List Instr) :
    runLines (before ++ i :: after) s = .fault (.runEnded c) := by
  obtain ⟨t, ht, hrun⟩ := runLines_append_of_no_fault hbefore hs (i :: after)
  rw [hrun, runLines_cons_of_fault hi ht]

/-- Settles O12: well-formed lines raise no fault, so the run reaches `i`, and `faultOf` names its fault. -/
theorem runStopsAtTheFirstFault : Obligations.RunStopsAtTheFirstFault := by
  intro before after i s hbefore hs
  have hclean : ∀ j ∈ before, faultOf j = none := fun j hj => faultOf_of_wellFormed (hbefore j hj)
  constructor
  · intro hreserved
    exact runLines_stops_at_first_fault hclean (faultOf_of_reserved hreserved) hs after
  · rintro w man n rfl hn
    exact runLines_stops_at_first_fault hclean (faultOf_roundShift hn man) hs after

/-! ### reset -/

/-- Settles O14: at reset every request is select 0, of format VV, and every response a value. -/
theorem resetPortsAreWired : Obligations.ResetPortsAreWired := by
  intro w
  have hformat : formatOf (State.reset.inputs w).op = .VV := by
    rw [State.reset_inputs]
    change formatOf 0 = .VV
    decide
  rw [ResponseFits, hformat]
  exact ⟨0, State.reset_outputs w⟩

end Sys2Proof.Machine

/-!
The same request answered twice (spec/20_memory.md R44, spec/70_reset_and_hazards.md R294).

A step leaves the pending line where it is, and a line that raised no fault drives a response that does not depend on
the state, so driving it again changes nothing.
-/

namespace Sys2Proof.Machine

/-- A step leads on exactly from an unmarked state, and there it runs the pending line. -/
theorem step_eq_next_iff {s t : State} :
    step s = .next t ↔ s.faultMark = none ∧ exec s.pendingLine s = .next t := by
  unfold step
  split
  case h_1 c hmark => simp [hmark]
  case h_2 hmark => simp [hmark]

/-- The pending line depends on the selection and the input ports alone. -/
theorem State.pendingLine_congr {s t : State} (hsel : t.sel = s.sel) (hin : ∀ w, t.inputs w = s.inputs w) :
    t.pendingLine = s.pendingLine := by
  rw [pendingLine, hsel, hin, ← pendingLine]

/-- A line leaves the pending line where it is: operand ports have no side effect (R44). -/
theorem exec_pendingLine {i : Instr} {s t : State} (h : exec i s = .next t) : t.pendingLine = s.pendingLine := by
  obtain ⟨-, hsel, hin, -⟩ := exec_shows h
  exact State.pendingLine_congr hsel hin

/-- A line that left the state unmarked drove its response, and drives the same one again. -/
theorem exec_again {i : Instr} {s t : State} (h : exec i s = .next t) (ht : t.faultMark = none) :
    exec i t = .next t := by
  rw [exec_eq_respond] at h ⊢
  obtain ⟨o, ho, hs⟩ | ⟨c, -, hs⟩ := respond_answers i.policy (answer i) s
  · cases hs.symm.trans h
    rw [ho, respond_ok, State.drive_drive]
  · cases hs.symm.trans h
    simp at ht

/-- Settles O10: the line pending at `t` is the line that led to `t`, which changes nothing when run again. -/
theorem answeringAgainChangesNothing : Obligations.AnsweringAgainChangesNothing := by
  intro s t h ht
  obtain ⟨-, hexec⟩ := step_eq_next_iff.mp h
  have hpending : t.pendingLine = s.pendingLine := exec_pendingLine hexec
  exact step_eq_next_iff.mpr ⟨ht, hpending ▸ exec_again hexec ht⟩

end Sys2Proof.Machine

/-!
A request and the line it decodes to (spec/30_encoding.md R66 to R74).

The select's four bits choose one row of the opcode table, and with it the format, the line's constructor and the ports
that are read.  So a request determines its line by the select and the named ports, and a line determines those of every
request that decodes to it.  What a step shows then rests on the line alone: its shape and its fault (R67, R68, R79).
-/

namespace Sys2Proof.Machine

/-! ### decode and encode -/

/-- Two selects are equal when their four bits are (R69). -/
theorem select_eq_iff (op op' : OpSelect) :
    op = op' ↔ op[3] = op'[3] ∧ op[2] = op'[2] ∧ op[1] = op'[1] ∧ op[0] = op'[0] := by
  revert op op'; decide

/-- Requests with the same select that agree on the ports its format names decode to the same line (R68, R71). -/
theorem decode_congr {w : WidthPolicy} {r r' : Request w} (hop : r.op = r'.op)
    (hports : Request.agreeOn (formatOf r.op) r r') : decode w r = decode w r' := by
  unfold decode
  rw [← hop]
  split <;> simp_all [formatOf, Request.agreeOn]

/-- Re-encoding a decoded request gives its select and the ports its format names (R69, R74). -/
theorem encode_decode {w : WidthPolicy} {r r' : Request w} {i : Instr} (hi : decode w r = i)
    (hr' : HEq r' (encode i)) : r.op = r'.op ∧ Request.agreeOn (formatOf r.op) r r' := by
  unfold decode at hi
  split at hi <;> subst hi <;> cases hr' <;> simp [select_eq_iff, formatOf, Request.agreeOn, encode, *]

/-- Settles O1: re-encoding what `r` decodes to gives back the ports `r`'s format reads, and those ports determine what
is decoded. -/
theorem decodeInvertsEncode : Obligations.DecodeInvertsEncode := by
  intro i r
  constructor
  · intro hi
    exact encode_decode hi HEq.rfl
  · rintro ⟨hop, hports⟩
    exact (decode_congr hop hports).trans (decode_encode i)

/-! ### the response fits the request -/

/-- An operation that returns on `y` shows a value. -/
theorem shownBy_onY {w : WidthPolicy} {r : Except FaultCode (BitVec w.totalBits)} (h : ∃ y, r = .ok y) :
    ∃ y, shownBy (onY r) = .value y := by
  obtain ⟨y, rfl⟩ := h
  exact ⟨y, rfl⟩

/-- The operand format of a line (R68). -/
def lineFormat : Instr → Format
  | .add _ _ _ | .sub _ _ _ | .mul _ _ _ | .div _ _ _ | .xorBits _ _ _ | .andBits _ _ _ => .VV
  | .fromBits _ _ | .toBits _ _ | .flipSign _ _ => .V1
  | .decompose _ _ => .U
  | .compose _ _ _ _ => .P
  | .classify _ _ => .C
  | .roundShift _ _ _ => .R
  | .reserved13 _ | .reserved14 _ | .reserved15 _ => .none

/-- A line is encoded with a select of its own format (R68 to R70). -/
theorem formatOf_encode (i : Instr) : formatOf (encode i).op = lineFormat i := by
  cases i <;> simp [formatOf, encode, lineFormat]

/-- A rounding shift shows its result in range, and `RS_SHIFT_RANGE` out of range (R263). -/
theorem shownBy_answerRoundShift (w : WidthPolicy) (man : BitVec w.extBits) (n : ShiftAmount) :
    if n.toNat ≤ w.manBits + 1 then ∃ x e, shownBy (answerRoundShift w man n) = .shifted x e
    else shownBy (answerRoundShift w man n) = .fault .rsShiftRange := by
  split
  case isTrue hn =>
    obtain ⟨x, e, hx⟩ := answerRoundShift_returns hn man
    exact ⟨x, e, by rw [hx, shownBy_ok]⟩
  case isFalse hn =>
    rw [answerRoundShift, roundShift_out_of_range (not_le.mp hn)]
    rfl

/-- The answer to a line fits every request that decodes to it: the shape its format drives, a fault exactly where the
rules raise one (R68, R79, R261 to R264). -/
theorem responseFits_answer {i : Instr} {r : Request i.policy} (h : decode i.policy r = i) :
    ResponseFits i.policy r (shownBy (answer i)) := by
  obtain ⟨hop, hports⟩ := (decodeInvertsEncode i r).mp h
  have hformat : formatOf r.op = lineFormat i := hop ▸ formatOf_encode i
  rw [hformat] at hports
  rw [ResponseFits, hformat]
  cases i with
  | add w a b => exact shownBy_onY (addBits_returns w a b)
  | sub w a b => exact shownBy_onY (addBits_returns w a (flipSignBits w b))
  | mul w a b => exact shownBy_onY (mulBits_returns w a b)
  | div w a b => exact shownBy_onY (divBits_returns w a b)
  | xorBits | andBits | fromBits | toBits | compose | flipSign => exact shownBy_onY ⟨_, rfl⟩
  | decompose => exact ⟨_, rfl⟩
  | classify => exact ⟨_, _, rfl⟩
  | roundShift w man n =>
    obtain ⟨-, hn : r.rN = n⟩ := hports
    simp only [lineFormat, hn]
    exact shownBy_answerRoundShift w man n
  | reserved13 | reserved14 | reserved15 => rfl

/-! ### the pending line -/

@[simp] theorem State.pendingLine_policy (s : State) : s.pendingLine.policy = s.sel := decode_policy _ _

/-- The pending line is what its own instance decodes. -/
theorem State.decode_pendingLine (s : State) :
    decode s.pendingLine.policy (s.inputs s.pendingLine.policy) = s.pendingLine := by
  rw [State.pendingLine_policy, ← State.pendingLine]

/-- All that a step changes: the instance of the pending line shows the answer to it. -/
theorem step_shows {s t : State} (h : step s = .next t) :
    t.outputs s.pendingLine.policy = shownBy (answer s.pendingLine) ∧ t.sel = s.sel ∧
      (∀ w, t.inputs w = s.inputs w) ∧ ∀ w, w ≠ s.pendingLine.policy → t.outputs w = s.outputs w :=
  exec_shows (step_eq_next_iff.mp h).2

/-- A step from an unmarked state marks the fault that it answers with (R30, log 5). -/
theorem step_marks {s t : State} (h : step s = .next t) {code : FaultCode}
    (hfault : t.outputs s.pendingLine.policy = .fault code) : t.faultMark = some code := by
  obtain ⟨hmark, hexec⟩ := step_eq_next_iff.mp h
  obtain ⟨-, -, -, -, hframe⟩ := frameOfEveryLine _ s t hexec
  simpa [hfault, hmark] using hframe

/-- Settles O13: the instance answered shows the answer to the line its ports decode to, which fits them; the other
instance's ports stay. -/
theorem stepKeepsPortsWired : Obligations.StepKeepsPortsWired := by
  intro s t hwired h
  obtain ⟨hshown, hsel, hin, hother⟩ := step_shows h
  constructor
  · intro w
    rw [hin]
    by_cases hw : w = s.pendingLine.policy
    · subst hw
      rw [hshown]
      exact responseFits_answer s.decode_pendingLine
    · rw [hother w hw]
      exact hwired w
  · rw [hsel, ← s.pendingLine_policy]
    exact fun _ hfault => step_marks h hfault

/-! ### the fault outputs -/

/-- `fault` is 1 exactly when `fault_code` is not 0 (R79). -/
theorem faultPort_eq_one_iff {w : WidthPolicy} (o : Response w) : o.faultPort = 1 ↔ o.faultCodePort ≠ 0 := by
  cases o with
  | fault c => cases c <;> simp [Response.faultPort, Response.faultCodePort, FaultCode.code]
  | _ => simp [Response.faultPort, Response.faultCodePort]

/-- The code that a line's response shows is that of the fault the rules give it, 0 without one. -/
theorem answer_faultCodePort (i : Instr) :
    (shownBy (answer i)).faultCodePort = ((faultOf i).map FaultCode.code).getD 0 := by
  cases hf : faultOf i with
  | some c =>
    rw [answer_of_faultOf_some hf]
    rfl
  | none =>
    obtain ⟨o, ho, hport⟩ := answer_of_faultOf_none hf
    rw [ho, shownBy_ok]
    by_contra hcode
    have hone : o.faultPort = 1 := (faultPort_eq_one_iff o).mpr hcode
    simp [hport] at hone

/-- Settles O5: `faultOf` gives the code line by line. -/
theorem faultOutputsOfEveryLine : Obligations.FaultOutputsOfEveryLine := by
  intro i s t h
  obtain ⟨hshown, -⟩ := exec_shows h
  refine ⟨?_, faultPort_eq_one_iff _⟩
  rw [hshown, answer_faultCodePort]
  cases i with
  | roundShift w man n =>
    by_cases hn : w.manBits + 1 < n.toNat <;> simp [faultOf, hn, FaultCode.code]
  | _ => rfl

/-! ### what a step's response depends on -/

/-- The instance answered shows the answer to the line that was presented, whatever was on the ports before. -/
theorem step_present_outputs {s t : State} {w : WidthPolicy} {r : Request w} {i : Instr} (hi : decode w r = i)
    (h : step (s.present w r) = .next t) : HEq (t.outputs w) (shownBy (answer i)) := by
  have hpending : (s.present w r).pendingLine = i := (State.present_pendingLine s w r).trans hi
  obtain ⟨hshown, -⟩ := step_shows h
  rw [hpending] at hshown
  obtain rfl : i.policy = w := hi ▸ decode_policy w r
  exact heq_of_eq hshown

/-- Settles O8: requests that agree on the named ports decode to the same line, and a step shows its answer. -/
theorem onlyNamedPortsMatter : Obligations.OnlyNamedPortsMatter := by
  intro w r r' s s' t t' hop hports h h'
  have hline : decode w r = decode w r' := decode_congr hop hports
  exact eq_of_heq ((step_present_outputs hline h).trans (step_present_outputs rfl h').symm)

/-- Settles O18: a settled state shows the answer to its pending line already. -/
theorem stepAnswersWhatThePortsShow : Obligations.StepAnswersWhatThePortsShow := by
  intro s t hsettled h
  obtain ⟨hshown, hsel, hin, hother⟩ := step_shows h
  refine ⟨hsel, fun w => ⟨hin w, ?_⟩⟩
  by_cases hw : w = s.pendingLine.policy
  · subst hw
    have hsettle : s.settle.outputs s.pendingLine.policy = shownBy (answer s.pendingLine) :=
      s.settle_outputs s.decode_pendingLine
    rw [hshown, ← hsettle, show s.settle = s from hsettled]
  · exact hother w hw

/-! ### raw words and the step -/

/-- A raw word is a select in its low 4 bits with every operand port 0; a word of 16 or above is rejected (log 7). -/
theorem decodeTableWord_eq (word : Nat) : decodeTableWord 8 word =
    if word < 16 then some (decode .binary32 (requestOfWord .binary32 (BitVec.ofNat 4 word))) else none := by
  by_cases h : word < 16
  · simp [decodeTableWord, selectOfWord, h, Nat.not_le.mpr h]
  · simp [decodeTableWord, selectOfWord, h, Nat.not_lt.mp h]

/-- A raw word decodes to the line whose encoding it stands for (log 7). -/
theorem decodeTableWord_of_encode {word : Nat} (hword : word < 16) {i : Instr} (hw : i.policy = .binary32)
    (hi : hw ▸ encode i = requestOfWord .binary32 (BitVec.ofNat 4 word)) : decodeTableWord 8 word = some i := by
  rw [decodeTableWord_eq, if_pos hword, ← hi]
  have hline : ∀ {w} (h : i.policy = w), decode w (h ▸ encode i) = i := by
    rintro _ rfl
    exact decode_encode i
  rw [hline hw]

/-- Settles O2: each row's line, with every operand 0, is encoded as the request that the row's word stands for. -/
theorem tableWordsDecode : Obligations.TableWordsDecode := by
  refine ⟨?_, ?_, ?_, ?_, ?_, ?_, ?_, ?_, ?_, ?_, ?_, ?_, ?_, ?_, ?_, ?_, ?wide⟩
  case wide =>
    intro word hword
    rw [decodeTableWord_eq, if_neg (not_lt.mpr hword)]
  all_goals exact decodeTableWord_of_encode (by decide) rfl rfl

/-- Settles O3: the step is `exec` of the pending line by definition, and `step_issue` names an issued line. -/
theorem stepRunsTheDecodedLine : Obligations.StepRunsTheDecodedLine := by
  refine ⟨fun s hs => ?_, fun s i hs => step_issue hs i, fun s c hs => ?_⟩
  · rw [step, hs]
    rfl
  · rw [step, hs]

/-! ### the encodings of the named values -/

/-- Settles O28: each pattern is three constant fields packed. -/
theorem namedPatterns : Obligations.NamedPatterns := by
  unfold Obligations.NamedPatterns
  decide

/-- The code of a Kind is at most 4 (R65). -/
theorem kindCode_le (k : Kind) : k.code.toNat ≤ 4 := by cases k <;> decide

/-- Settles O30: only a classified response drives `kind`, with the code of its Kind. -/
theorem kindPortEncoding : Obligations.KindPortEncoding := by
  refine ⟨rfl, rfl, rfl, rfl, rfl, fun _ _ _ => rfl, ?_⟩
  intro w r c h
  cases r with
  | classified k d =>
    cases h
    exact kindCode_le k
  | _ => cases h

end Sys2Proof.Machine

/-!
The fp_bit_unpacker (spec/40_bit_unpacker.md R90 to R94).

A pattern is its three fields packed, and DECOMPOSE and COMPOSE are the two directions of that.  An unpacked operand
depends on whether the exponent field is 0, which decides the implicit bit; prenormalizing shifts by as many places as
the mantissa is short of `p` bits.
-/

namespace Sys2Proof.Machine

/-! ### DECOMPOSE and COMPOSE -/

/-- Settles O23: each field's bits, read as a number, are a quotient and remainder of the pattern. -/
theorem decomposeReadsFields : Obligations.DecomposeReadsFields := by
  intro w a s
  exact ⟨rfl, decomposeRaw w a, exec_eq_respond _ _, signField_toNat w a, expField_toNat w a, manField_toNat w a⟩

/-- Settles O24: the packing truncates an exponent or mantissa wider than its field. -/
theorem composePacksTruncatedFields : Obligations.ComposePacksTruncatedFields := by
  intro w sign exp man s
  exact ⟨composeRaw w sign exp.toNat man.toNat, exec_eq_respond _ _, composeRaw_toNat w sign exp.toNat man.toNat⟩

/-- R92 (a): a pattern is its own fields packed. -/
theorem composeRaw_decomposeRaw (w : WidthPolicy) (r : BitVec w.totalBits) :
    composeRaw w (decomposeRaw w r).sign (decomposeRaw w r).biasedExponent.toNat
      (decomposeRaw w r).storedMantissa.toNat = r := by
  have hlow : w.totalBits - 1 = w.manBits + w.expBits := by cases w <;> rfl
  apply BitVec.eq_of_toNat_eq
  rw [composeRaw_toNat]
  simp only [decomposeRaw, signField_toNat, expField_toNat, manField_toNat, Nat.mod_mod, hlow]
  calc _ = r.toNat / 2 ^ (w.manBits + w.expBits) * 2 ^ (w.manBits + w.expBits)
          + (r.toNat % 2 ^ w.manBits + 2 ^ w.manBits * (r.toNat / 2 ^ w.manBits % 2 ^ w.expBits)) := by ring
    _ = r.toNat / 2 ^ (w.manBits + w.expBits) * 2 ^ (w.manBits + w.expBits)
          + r.toNat % 2 ^ (w.manBits + w.expBits) := by rw [pow_add, Nat.mod_mul]
    _ = r.toNat := Nat.div_add_mod' _ _

/-- Settles O25: the fields of a packed pattern are the truncated operands, and a legal operand is not truncated. -/
theorem composeAndDecomposeAreInverse : Obligations.ComposeAndDecomposeAreInverse := by
  refine ⟨composeRaw_decomposeRaw, fun w sign be sm hbe hsm => ⟨signField_composeRaw w sign be sm, ?_, ?_⟩,
    fun w sign be sm =>
      ⟨signField_composeRaw w sign be sm, expField_composeRaw w sign be sm, manField_composeRaw w sign be sm⟩⟩
  · exact (expField_composeRaw w sign be sm).trans (Nat.mod_eq_of_lt hbe)
  · exact (manField_composeRaw w sign be sm).trans (Nat.mod_eq_of_lt hsm)

/-! ### unpack_finite -/

/-- R93: with exponent field 0 there is no implicit bit. -/
theorem unpackFinite_of_expField_eq_zero {w : WidthPolicy} {x : BitVec w.totalBits} (h : expField w x = 0) :
    unpackFinite w x = { sign := signField w x, man := (manField w x).toNat, exp := w.minExp } := by
  simp [unpackFinite, h]

/-- R93: an exponent field other than 0 sets the implicit bit, whatever the stored mantissa. -/
theorem unpackFinite_of_expField_ne_zero {w : WidthPolicy} {x : BitVec w.totalBits} (h : expField w x ≠ 0) :
    unpackFinite w x =
      { sign := signField w x
        man := 2 ^ w.manBits + (manField w x).toNat
        exp := (expField w x).toNat - w.bias } := by
  have hbe : (expField w x).toNat ≠ 0 := by simpa [← BitVec.toNat_inj] using h
  simp [unpackFinite, hbe, hidden_or_manField]

/-- Bit `MB` of the unpacked mantissa is the implicit bit. -/
theorem unpackFinite_implicitBit (w : WidthPolicy) (x : BitVec w.totalBits) :
    (unpackFinite w x).man.testBit w.manBits = true ↔ expField w x ≠ 0 := by
  have hstored : (manField w x).toNat.testBit w.manBits = false := Nat.testBit_lt_two_pow (manField_lt w x)
  by_cases h : expField w x = 0
  · simp [unpackFinite_of_expField_eq_zero h, hstored, h]
  · simpa [unpackFinite_of_expField_ne_zero h, Nat.testBit_two_pow_add_eq, hstored] using h

/-- Settles O26: the two cases of the exponent field, and what holds of the unpacked operand in both. -/
theorem unpackFiniteKeepsTheValue : Obligations.UnpackFiniteKeepsTheValue := by
  intro w x _
  refine ⟨unpackFinite_sign w x, fun h => ?_, fun h => ?_, magnitude_eq_unpackFinite w x, unpackFinite_man_lt w x,
    unpackFinite_implicitBit w x⟩
  · rw [unpackFinite_of_expField_eq_zero h]
    exact ⟨rfl, rfl⟩
  · rw [unpackFinite_of_expField_ne_zero h]
    exact ⟨rfl, rfl⟩

/-! ### prenormalize -/

/-- A mantissa whose leading bit is set already is shifted by nothing. -/
theorem prenormalize_of_hidden_le {w : WidthPolicy} {u : Unpacked} (hlo : w.hidden ≤ u.man)
    (hhi : u.man < 2 ^ w.sigBits) : prenormalize w u = u := by
  have hlen : bitLength u.man = w.sigBits := bitLength_eq_succ_iff.mpr ⟨hidden_eq w ▸ hlo, hhi⟩
  simp [prenormalize, hlen]

/-- The exponent falls by the shift, and a nonzero mantissa is at most `MB` bits short. -/
theorem prenormalize_exp_bounds {w : WidthPolicy} {u : Unpacked} (hpos : 0 < u.man) :
    u.exp - (w.manBits : ℤ) ≤ (prenormalize w u).exp ∧ (prenormalize w u).exp ≤ u.exp := by
  have hlen : 0 < bitLength u.man := bitLength_pos hpos.ne'
  simp only [prenormalize, WidthPolicy.sigBits]
  omega

/-- Settles O27: the mantissa's bounds, the value and the exponent's range, each from its own lemma. -/
theorem prenormalizeKeepsTheValue : Obligations.PrenormalizeKeepsTheValue := by
  intro w u hpos hman
  obtain ⟨hlo, hhi⟩ := prenormalize_man_bounds hpos hman
  exact ⟨rfl, hlo, hhi, prenormalize_value w u, fun hlead => prenormalize_of_hidden_le hlead hman,
    prenormalize_exp_bounds hpos⟩

end Sys2Proof.Machine

/-!
The fp_classifier (spec/41_classifier.md R110 to R114).

A Kind is the answer exactly when the exponent field and the stored mantissa fit its definition
(`kindOf_eq_iff_fits`).  A magnitude is an unpacked mantissa in units in the last place at the unpacked exponent, so
the range of the finite magnitudes is the range of these two numbers.
-/

namespace Sys2Proof.Machine

/-! ### the one Kind of a pattern (R110) -/

/-- R110's definition of each Kind, on the exponent field `e` and the stored mantissa `f`. -/
def Kind.Fits (w : WidthPolicy) (e f : ℕ) : Kind → Prop
  | .zero => e = 0 ∧ f = 0
  | .subnormal => e = 0 ∧ f ≠ 0
  | .normal => 0 < e ∧ e < w.maxBiasedExp
  | .infinity => e = w.maxBiasedExp ∧ f = 0
  | .nan => e = w.maxBiasedExp ∧ f ≠ 0

theorem maxBiasedExp_pos (w : WidthPolicy) : 0 < w.maxBiasedExp := by cases w <;> decide

/-- The Kind the classifier gives fits the fields. -/
theorem kindOf_fits (w : WidthPolicy) (x : BitVec w.totalBits) :
    (kindOf w x).Fits w (expField w x).toNat (manField w x).toNat := by
  have hle := expField_le w x
  unfold kindOf classifyFields
  split_ifs with hzero hsub hinf hnan
  · exact hzero
  · exact hsub
  · exact hinf
  · exact hnan
  · simp only [Kind.Fits]
    omega

/-- Fields that fit a Kind are given that Kind: the tests before its own fail, as the largest exponent field is
not 0. -/
theorem kindOf_of_fits {w : WidthPolicy} {x : BitVec w.totalBits} {k : Kind}
    (h : k.Fits w (expField w x).toNat (manField w x).toNat) : kindOf w x = k := by
  have hmax := (maxBiasedExp_pos w).ne'
  unfold kindOf classifyFields
  cases k with obtain ⟨he, hf⟩ := h
  | zero => simp only [he, hf, and_self, if_true]
  | subnormal => simp only [he, hf, and_false, if_false, ne_eq, not_false_eq_true, and_self, if_true]
  | normal => simp only [he.ne', hf.ne, false_and, if_false]
  | infinity => simp only [he, hf, hmax, false_and, if_false, and_self, if_true]
  | nan => simp only [he, hf, hmax, false_and, and_false, if_false, ne_eq, not_false_eq_true, and_self, if_true]

/-- R110: a pattern's Kind is the one whose definition its fields fit. -/
theorem kindOf_eq_iff_fits (w : WidthPolicy) (x : BitVec w.totalBits) (k : Kind) :
    kindOf w x = k ↔ k.Fits w (expField w x).toNat (manField w x).toNat :=
  ⟨fun h => h ▸ kindOf_fits w x, kindOf_of_fits⟩

/-- Settles O29: CLASSIFY answers with `kindOf`, whose fields are a quotient and a remainder of the pattern. -/
theorem classifyGivesTheOneKind : Obligations.ClassifyGivesTheOneKind := by
  intro w a s
  have hfits := kindOf_eq_iff_fits w a
  rw [expField_toNat, manField_toNat] at hfits
  exact ⟨rfl, kindOf w a, exec_eq_respond _ _, hfits .zero, hfits .subnormal, hfits .normal, hfits .infinity,
    hfits .nan⟩

/-! ### the range of the finite magnitudes (R114) -/

/-- A mantissa of `m` or more is worth at least `m` units in the last place at the minimum exponent. -/
theorem le_magnitude_of_le_man {w : WidthPolicy} {x : BitVec w.totalBits} {m : ℕ} (h : m ≤ (unpackFinite w x).man) :
    (m : ℚ) * 2 ^ (w.minExp - (w.manBits : ℤ)) ≤ magnitude w x := by
  rw [magnitude_eq_unpackFinite]
  have hexp := minExp_le_unpackFinite_exp w x
  gcongr
  exact one_le_two

/-- The least nonzero magnitude has mantissa 1. -/
theorem smallest_le_magnitude {w : WidthPolicy} {x : BitVec w.totalBits} (h : kindOf w x ≠ .zero) :
    (2 : ℚ) ^ (w.minExp - (w.manBits : ℤ)) ≤ magnitude w x := by
  simpa using le_magnitude_of_le_man (unpackFinite_man_pos h)

/-- The greatest finite magnitude has the largest mantissa at the maximum exponent. -/
theorem magnitude_le_largest {w : WidthPolicy} {x : BitVec w.totalBits} (h : (kindOf w x).isFinite = true) :
    magnitude w x ≤ ((2 ^ w.sigBits - 1 : ℕ) : ℚ) * 2 ^ (w.maxExp - (w.manBits : ℤ)) := by
  rw [magnitude_eq_unpackFinite]
  have hman := Nat.le_sub_one_of_lt (unpackFinite_man_lt w x)
  have hexp := unpackFinite_exp_le h
  gcongr
  exact one_le_two

/-- A Normal has its implicit bit set. -/
theorem two_pow_minExp_le_magnitude {w : WidthPolicy} {x : BitVec w.totalBits} (h : kindOf w x = .normal) :
    (2 : ℚ) ^ w.minExp ≤ magnitude w x := by
  obtain ⟨hpos, -⟩ := (kindOf_eq_iff_fits w x .normal).mp h
  have hexp : expField w x ≠ 0 := fun h0 => by simp [h0] at hpos
  have hman : 2 ^ w.manBits ≤ (unpackFinite w x).man := by
    rw [unpackFinite_of_expField_ne_zero hexp]
    exact Nat.le_add_right _ _
  simpa [two_pow_mul_ulp] using le_magnitude_of_le_man hman

/-- The least Subnormal reaches the lower end. -/
theorem magnitude_least_subnormal (w : WidthPolicy) :
    magnitude w (composeRaw w 0 0 1) = (2 : ℚ) ^ (w.minExp - (w.manBits : ℤ)) := by
  have hman : 1 < 2 ^ w.manBits := Nat.one_lt_two_pow (Nat.one_le_iff_ne_zero.mp (manBits_pos w))
  rw [magnitude_composeRaw_subnormal 0 hman, Nat.cast_one, one_mul]

/-- The least Normal has exponent field 1 and an empty stored mantissa. -/
theorem magnitude_least_normal (w : WidthPolicy) : magnitude w (composeRaw w 0 1 0) = (2 : ℚ) ^ w.minExp := by
  rw [magnitude_composeRaw_normal 0 one_ne_zero (maxBiasedExp_pos w) (by positivity), Nat.cast_one,
    ← WidthPolicy.minExp]
  simp [two_pow_mul_ulp]

/-- The largest finite pattern reaches the upper end. -/
theorem magnitude_largest (w : WidthPolicy) : magnitude w (composeRaw w 0 (w.maxBiasedExp - 1) w.manMask) =
    ((2 ^ w.sigBits - 1 : ℕ) : ℚ) * 2 ^ (w.maxExp - (w.manBits : ℤ)) := by
  have hpow : 0 < 2 ^ w.manBits := by positivity
  have hmax : 1 < w.maxBiasedExp := by cases w <;> decide
  have hman : 2 ^ w.manBits + w.manMask = 2 ^ w.sigBits - 1 := by
    rw [manMask_eq, ← two_mul_hidden, hidden_eq]; omega
  have hexp : ((w.maxBiasedExp - 1 : ℕ) : ℤ) - w.bias = w.maxExp := by rw [WidthPolicy.maxExp]; omega
  rw [magnitude_composeRaw_normal 0 (by omega) (by omega) (by rw [manMask_eq]; omega), hman, hexp]

/-- Settles O31: the bounds, the patterns that reach them, and the numbers of the two policies. -/
theorem finiteMagnitudeRange : Obligations.FiniteMagnitudeRange :=
  ⟨fun w => ⟨fun _ hfin hne => ⟨smallest_le_magnitude hne, magnitude_le_largest hfin⟩,
      fun _ => two_pow_minExp_le_magnitude, magnitude_least_subnormal w, magnitude_least_normal w,
      magnitude_largest w⟩,
    by decide, by decide, by decide, by decide⟩

end Sys2Proof.Machine

/-!
The fp_rounding_engine (spec/42_rounding_engine.md R120 to R128).

`round_shift` answers with the nearest integer, ties to even (`roundShift_nearestEven`), and `exact` says that the
shifted-out part is 0 (`roundShift_exact_iff`).  All else follows from these two: the nearest integer is unique, it is
monotone, and an integer is nearest to itself.
-/

namespace Sys2Proof.Machine

/-! ### order and the nearest integer -/

namespace NearestEven

variable {t t' : ℚ} {R R' : ℕ}

/-- An integer is nearest to itself. -/
theorem natCast (R : ℕ) : NearestEven R R := by simp [NearestEven]

/-- Rounding is monotone. -/
theorem mono (h : NearestEven t R) (h' : NearestEven t' R') (ht : t ≤ t') : R ≤ R' := by
  obtain rfl | hlt := ht.eq_or_lt
  · exact (h.unique h').le
  · obtain ⟨hlo, -, -⟩ := iff_halves.mp h
    obtain ⟨-, hhi, -⟩ := iff_halves.mp h'
    exact Nat.lt_succ_iff.mp (by exact_mod_cast (by linarith : (R : ℚ) < R' + 1))

variable {X n x : ℕ}

/-- The rounded quotient is at least the truncated one. -/
theorem div_le (h : NearestEven ((X : ℚ) / 2 ^ n) x) : X / 2 ^ n ≤ x :=
  h.ge_of_ge (by exact_mod_cast Nat.cast_div_le (α := ℚ) (m := X) (n := 2 ^ n))

/-- The rounded quotient is at most one more than the truncated one. -/
theorem le_div_add_one (h : NearestEven ((X : ℚ) / 2 ^ n) x) : x ≤ X / 2 ^ n + 1 := by
  refine h.le_of_lt ?_
  rw [div_lt_iff₀ (by positivity), mul_comm]
  exact_mod_cast Nat.lt_mul_div_succ X (by positivity)

/-- The rounded quotient is no more than the dividend. -/
theorem le_dividend (h : NearestEven ((X : ℚ) / 2 ^ n) x) : x ≤ X :=
  h.mono (natCast X) (div_le_self (by positivity) (one_le_pow₀ one_le_two))

/-- The rounded quotient gives back the dividend exactly when nothing is left over. -/
theorem mul_two_pow_eq_iff (h : NearestEven ((X : ℚ) / 2 ^ n) x) : x * 2 ^ n = X ↔ X % 2 ^ n = 0 := by
  constructor
  · rintro rfl
    exact Nat.mul_mod_left x _
  · intro hmod
    obtain ⟨q, rfl⟩ := Nat.dvd_of_mod_eq_zero hmod
    have hq : ((2 ^ n * q : ℕ) : ℚ) / 2 ^ n = q := by push_cast; field_simp
    rw [hq] at h
    rw [h.unique (natCast q), mul_comm]

end NearestEven

/-! ### the bits shifted out (R121, R124) -/

/-- R124: guard and sticky together are the remainder. -/
theorem exactShift_succ (X m : ℕ) : exactShift X (m + 1) = true ↔ X % 2 ^ (m + 1) = 0 := by
  have hguard : guardBit X (m + 1) = decide (X / 2 ^ m % 2 = 1) := Nat.testBit_eq_decide_div_mod_eq
  have hsticky : stickyBit X (m + 1) = decide (X % 2 ^ m ≠ 0) := by
    cases m <;> simp [stickyBit, Nat.mod_one]
  simp [exactShift, hguard, hsticky, Nat.mod_pow_succ, and_comm]

/-- A remainder by a power of two is 0 exactly when the low bits are. -/
theorem mod_two_pow_eq_zero_iff_testBit (X n : ℕ) : X % 2 ^ n = 0 ↔ ∀ i < n, X.testBit i = false := by
  simp [Nat.eq_iff_testBit_eq]

/-! ### round_shift -/

/-- All that `round_shift` can return: within the range, the mantissa itself for shift 0 and the rounded shift for
another one (R120, R123, R125). -/
theorem roundShift_ok_cases {w : WidthPolicy} {X n : ℕ} {r : ℕ × Bool} (h : roundShift w X n = .ok r) :
    (n = 0 ∧ r = (X, true)) ∨ ∃ m, n = m + 1 ∧ r = (roundedShift X (m + 1), exactShift X (m + 1)) := by
  obtain hout | hin := lt_or_ge (w.manBits + 1) n
  · rw [roundShift_out_of_range hout] at h
    cases h
  cases n with
  | zero =>
    rw [roundShift_by_zero] at h
    cases h
    exact .inl ⟨rfl, rfl⟩
  | succ m =>
    rw [roundShift_in_range m.succ_ne_zero hin] at h
    cases h
    exact .inr ⟨m, rfl, rfl⟩

/-- Within its range `round_shift` returns (R125). -/
theorem roundShift_returns {w : WidthPolicy} {n : ℕ} (h : n ≤ w.manBits + 1) (X : ℕ) :
    ∃ x exact, roundShift w X n = .ok (x, exact) := by
  obtain rfl | h0 := eq_or_ne n 0
  · exact ⟨_, _, roundShift_by_zero w X⟩
  · exact ⟨_, _, roundShift_in_range h0 h X⟩

section Returned

variable {w : WidthPolicy} {X n x : ℕ} {exact : Bool}

/-- R127: what `round_shift` returns is the nearest integer, ties to even. -/
theorem roundShift_nearestEven (h : roundShift w X n = .ok (x, exact)) :
    NearestEven ((X : ℚ) / 2 ^ n) x := by
  obtain ⟨rfl, hr⟩ | ⟨m, rfl, hr⟩ := roundShift_ok_cases h <;> cases hr
  · simpa using NearestEven.natCast X
  · exact roundedShift_nearestEven X m

/-- R124: `exact` says that the shifted-out part is 0. -/
theorem roundShift_exact_iff (h : roundShift w X n = .ok (x, exact)) : exact = true ↔ X % 2 ^ n = 0 := by
  obtain ⟨rfl, hr⟩ | ⟨m, rfl, hr⟩ := roundShift_ok_cases h <;> cases hr
  · simp [Nat.mod_one]
  · exact exactShift_succ X m

/-- R124, R127: what `round_shift` returns meets its contract. -/
theorem roundShift_meets (h : roundShift w X n = .ok (x, exact)) : RoundShiftMeets X n x exact := by
  have hnear := roundShift_nearestEven h
  exact ⟨fun k => ⟨hnear.dist_le k, fun htie hk => hnear.even_of_tie hk htie⟩,
    (roundShift_exact_iff h).trans hnear.mul_two_pow_eq_iff.symm⟩

end Returned

/-- R127: for one shift, `round_shift` is monotone in the mantissa. -/
theorem roundShift_mono {w : WidthPolicy} {X X' n : ℕ} {r r' : ℕ × Bool} (hX : X ≤ X')
    (h : roundShift w X n = .ok r) (h' : roundShift w X' n = .ok r') : r.1 ≤ r'.1 :=
  (roundShift_nearestEven h).mono (roundShift_nearestEven h') (by gcongr)

/-! ### ROUNDSHIFT -/

/-- Within the range, the ports show what `round_shift` returns on the numbers: `r_shifted` never wraps (R120, R128). -/
theorem answerRoundShift_ok {w : WidthPolicy} {n : ShiftAmount} (h : n.toNat ≤ w.manBits + 1)
    (man : BitVec w.extBits) : ∃ x exact, roundShift w man.toNat n.toNat = .ok (x.toNat, exact) ∧
      answerRoundShift w man n = .ok (.shifted x exact) := by
  obtain ⟨x, exact, hround⟩ := roundShift_returns h man.toNat
  have hfits : x < 2 ^ w.extBits := (roundShift_nearestEven hround).le_dividend.trans_lt man.isLt
  refine ⟨BitVec.ofNat w.extBits x, exact, ?_, ?_⟩
  · rw [hround, BitVec.toNat_ofNat, Nat.mod_eq_of_lt hfits]
  · rw [answerRoundShift, hround]
    rfl

/-- Within the range, ROUNDSHIFT drives what `round_shift` returns and changes nothing else. -/
theorem exec_roundShift {w : WidthPolicy} {n : ShiftAmount} (h : n.toNat ≤ w.manBits + 1)
    (man : BitVec w.extBits) (s : State) : ∃ x exact, roundShift w man.toNat n.toNat = .ok (x.toNat, exact) ∧
      exec (.roundShift w man n) s = .next (s.drive w (.shifted x exact)) := by
  obtain ⟨x, exact, hround, hanswer⟩ := answerRoundShift_ok h man
  refine ⟨x, exact, hround, ?_⟩
  rw [exec_eq_respond]
  simp only [answer, Instr.policy, hanswer, respond_ok]

/-- Settles O34: `round_shift` by 0 returns the mantissa, exact. -/
theorem roundShiftByZero : Obligations.RoundShiftByZero := by
  intro w man s
  obtain ⟨x, exact, hround, hexec⟩ := exec_roundShift (n := 0) (Nat.zero_le _) man s
  obtain ⟨hx, rfl⟩ : man.toNat = x.toNat ∧ true = exact := by simpa using hround
  rw [hexec, BitVec.eq_of_toNat_eq hx]

/-- Settles O33: `exact` says that the remainder is 0, and the remainder is the low bits of the mantissa. -/
theorem roundShiftExactOutput : Obligations.RoundShiftExactOutput := by
  intro w man n s hn
  obtain ⟨x, exact, hround, hexec⟩ := exec_roundShift hn man s
  obtain ⟨-, hexact⟩ := roundShift_meets hround
  exact ⟨x, exact, hexec,
    (roundShift_exact_iff hround).trans (mod_two_pow_eq_zero_iff_testBit man.toNat n.toNat), hexact⟩

/-- ROUNDSHIFT of the mantissa 0 is 0, exact. -/
theorem roundShift_zero_mantissa {w : WidthPolicy} {n x : ℕ} {exact : Bool}
    (h : roundShift w 0 n = .ok (x, exact)) : x = 0 ∧ exact = true :=
  ⟨Nat.le_zero.mp (roundShift_nearestEven h).le_dividend, (roundShift_exact_iff h).mpr (Nat.zero_mod _)⟩

/-- Settles O32: the contract, the bounds of the nearest integer, the mantissa 0, and monotonicity. -/
theorem roundShiftIsNearestEven : Obligations.RoundShiftIsNearestEven := by
  refine ⟨fun w man n s hn => ?_, fun w X X' n r r' => roundShift_mono⟩
  obtain ⟨x, exact, hround, hexec⟩ := exec_roundShift hn man s
  obtain ⟨hnearest, -⟩ := roundShift_meets hround
  have hnear := roundShift_nearestEven hround
  refine ⟨x, exact, hexec, hnearest, hnear.div_le, hnear.le_div_add_one, ?_⟩
  rintro rfl
  obtain ⟨hx, hexact⟩ := roundShift_zero_mantissa hround
  exact ⟨BitVec.eq_of_toNat_eq hx, hexact⟩

end Sys2Proof.Machine

/-!
The normalize, round and pack stage (spec/43_normalize_round_pack.md R140, R141, R149).

A jammed shift is known by its low bit and by what stands above it (`jamShift_mod_two`, `jamShift_div_two_eq`); the exact
magnitude that `nrp` rounds is `X` itself, the case of `nrp_roundsTo` in which nothing was lost before.
-/

namespace Sys2Proof.Machine

/-! ### `jam_shift` (R141) -/

/-- Above bit 0 a jammed shift is the plain shift, a shift by 0 included. -/
theorem jamShift_div_two_eq (X k : ℕ) : jamShift X k / 2 = X / 2 ^ k / 2 := by
  rcases eq_or_ne k 0 with rfl | hk
  · simp
  · rw [jamShift_div_two X k hk, pow_succ, Nat.div_div_eq_div_mul]

/-- Bit 0 of a jammed shift: the plain shift's, or set because something nonzero was lost. -/
theorem jamShift_mod_two (X k : ℕ) : jamShift X k % 2 = 1 ↔ X / 2 ^ k % 2 = 1 ∨ X % 2 ^ k ≠ 0 := by
  by_cases hlost : X % 2 ^ k = 0
  · rw [jamShift_exact hlost]
    simp [hlost]
  · have hk : k ≠ 0 := by rintro rfl; simp [Nat.mod_one] at hlost
    simp [jamShift, hk, hlost]

/-- A nonzero mantissa shifted out whole leaves only the jammed bit. -/
theorem jamShift_eq_one {X k : ℕ} (hX : X ≠ 0) (hlen : bitLength X ≤ k) : jamShift X k = 1 := by
  have hfit : X < 2 ^ (k + 1) := bitLength_le_iff.mp (hlen.trans k.le_succ)
  have hlt : jamShift X k < 2 ^ 1 := jamShift_lt hfit one_ne_zero
  have hne := jamShift_ne_zero hX k
  omega

/-- Settles O36: the two parts of a jammed shift, a mantissa shifted out whole, and the rounding of a jammed shift. -/
theorem jamShiftKeepsLostBits : Obligations.JamShiftKeepsLostBits := by
  refine ⟨fun X k => ⟨jamShift_div_two_eq X k, jamShift_mod_two X k⟩, fun X k hlen => ?_,
    fun X k n => roundedShift_jamShift X k⟩
  split_ifs with hX
  · rw [hX, jamShift_of_zero]
  · exact jamShift_eq_one hX hlen

/-! ### `nrp` (R140, R149) -/

/-- Settles O37: R140's `X` is exact, so `nrp` rounds it wherever its leading bit stands. -/
theorem nrpRoundsCorrectly : Obligations.NrpRoundsCorrectly := by
  intro w s e X g hpos hX hg _
  exact nrp_roundsTo s e (JamsTo.exact X) hpos hX hg (.inl rfl)

end Sys2Proof.Machine

/-!
The fp_adder_sub: ADD's rows, its computed path at the edges, SUB and FLIPSIGN (spec/44_adder_sub.md R160 to R174).

A pattern is determined by its fields, and so by its sign and magnitude (`eq_of_magnitude_eq`).  So a result that rounds
a magnitude of the format is the pattern of that magnitude, and an operand that cancels another is its flipped pattern.
Flipping the sign bit leaves the other two fields, which carries every fact about ADD to SUB.
-/

namespace Sys2Proof.Machine

/-! ### patterns and their fields -/

/-- A pattern is determined by its three fields. -/
theorem eq_of_fields {w : WidthPolicy} {x y : BitVec w.totalBits} (hsign : signField w x = signField w y)
    (hexp : (expField w x).toNat = (expField w y).toNat) (hman : (manField w x).toNat = (manField w y).toNat) :
    x = y := by
  rw [← composeRaw_decomposeRaw w x, ← composeRaw_decomposeRaw w y]
  simp only [decomposeRaw, hsign, hexp, hman]

/-- There are two Zeros, one of each sign. -/
theorem eq_of_zero_of_sign_eq {w : WidthPolicy} {x y : BitVec w.totalBits} (hx : kindOf w x = .zero)
    (hy : kindOf w y = .zero) (hsign : signField w x = signField w y) : x = y := by
  obtain ⟨hex, hmx⟩ := (kindOf_eq_iff_fits w x .zero).mp hx
  obtain ⟨hey, hmy⟩ := (kindOf_eq_iff_fits w y .zero).mp hy
  exact eq_of_fields hsign (hex.trans hey.symm) (hmx.trans hmy.symm)

/-- There are two infinities, one of each sign. -/
theorem eq_of_infinity_of_sign_eq {w : WidthPolicy} {x y : BitVec w.totalBits} (hx : kindOf w x = .infinity)
    (hy : kindOf w y = .infinity) (hsign : signField w x = signField w y) : x = y := by
  obtain ⟨hex, hmx⟩ := (kindOf_eq_iff_fits w x .infinity).mp hx
  obtain ⟨hey, hmy⟩ := (kindOf_eq_iff_fits w y .infinity).mp hy
  exact eq_of_fields hsign (hex.trans hey.symm) (hmx.trans hmy.symm)

@[simp] theorem kindOf_zeroBits (w : WidthPolicy) (s : Sign) : kindOf w (zeroBits w s) = .zero := by
  rw [kindOf_eq_zero_iff, zeroBits, expField_composeRaw, manField_composeRaw]
  simp

@[simp] theorem signField_zeroBits (w : WidthPolicy) (s : Sign) : signField w (zeroBits w s) = s :=
  signField_composeRaw w s 0 0

/-- A Kind is NaN, infinity or one of the finite ones (spec/00_scope.md R16). -/
theorem Kind.nan_or_infinity_or_finite (k : Kind) : k = .nan ∨ k = .infinity ∨ k.isFinite = true := by
  cases k <;> simp [Kind.isFinite]

/-! ### patterns and their values (spec/41_classifier.md R112) -/

/-- Unpacking loses nothing: bit `MB` of the mantissa tells whether the exponent field was 0 (R93). -/
theorem unpackFinite_injective (w : WidthPolicy) : Function.Injective (unpackFinite w) := by
  intro x y h
  have himplicit : expField w x ≠ 0 ↔ expField w y ≠ 0 := by
    rw [← unpackFinite_implicitBit, h, unpackFinite_implicitBit]
  by_cases hx : expField w x = 0
  · have hy : expField w y = 0 := by simpa [hx] using himplicit
    rw [unpackFinite_of_expField_eq_zero hx, unpackFinite_of_expField_eq_zero hy, Unpacked.mk.injEq] at h
    obtain ⟨hsign, hman, -⟩ := h
    exact eq_of_fields hsign (by rw [hx, hy]) hman
  · rw [unpackFinite_of_expField_ne_zero hx, unpackFinite_of_expField_ne_zero (himplicit.mp hx),
      Unpacked.mk.injEq] at h
    obtain ⟨hsign, hman, hexp⟩ := h
    exact eq_of_fields hsign (by omega) (by omega)

/-- Above the minimum exponent the implicit bit is set, so a magnitude is at least its own binade's start. -/
theorem two_pow_exp_le_magnitude {w : WidthPolicy} {x : BitVec w.totalBits} (h : w.minExp < (unpackFinite w x).exp) :
    (2 : ℚ) ^ (unpackFinite w x).exp ≤ magnitude w x := by
  obtain ⟨-, hlead⟩ := (unpackFinite_exp_cases w x).resolve_left h.ne'
  rw [hidden_eq] at hlead
  have hlead' : (2 : ℚ) ^ w.manBits ≤ (unpackFinite w x).man := by exact_mod_cast hlead
  calc (2 : ℚ) ^ (unpackFinite w x).exp = 2 ^ w.manBits * 2 ^ ((unpackFinite w x).exp - (w.manBits : ℤ)) := by
        rw [two_pow_mul_ulp]; simp
    _ ≤ (unpackFinite w x).man * 2 ^ ((unpackFinite w x).exp - (w.manBits : ℤ)) := by gcongr
    _ = magnitude w x := (magnitude_eq_unpackFinite w x).symm

/-- A pattern of a smaller exponent has a smaller magnitude. -/
theorem magnitude_lt_of_exp_lt {w : WidthPolicy} {x y : BitVec w.totalBits}
    (h : (unpackFinite w x).exp < (unpackFinite w y).exp) : magnitude w x < magnitude w y :=
  calc magnitude w x < 2 ^ ((unpackFinite w x).exp + 1) := magnitude_lt_two_pow w x
    _ ≤ 2 ^ (unpackFinite w y).exp := zpow_le_zpow_right₀ one_le_two h
    _ ≤ magnitude w y := two_pow_exp_le_magnitude ((minExp_le_unpackFinite_exp w x).trans_lt h)

/-- A pattern is determined by its sign and magnitude. -/
theorem eq_of_magnitude_eq {w : WidthPolicy} {x y : BitVec w.totalBits} (hsign : signField w x = signField w y)
    (hmag : magnitude w x = magnitude w y) : x = y := by
  have hexp : (unpackFinite w x).exp = (unpackFinite w y).exp := by
    rcases lt_trichotomy (unpackFinite w x).exp (unpackFinite w y).exp with h | h | h
    · exact absurd hmag (magnitude_lt_of_exp_lt h).ne
    · exact h
    · exact absurd hmag (magnitude_lt_of_exp_lt h).ne'
  have hman : (unpackFinite w x).man = (unpackFinite w y).man := by
    rw [magnitude_eq_unpackFinite, magnitude_eq_unpackFinite, hexp, mul_left_inj' (by positivity)] at hmag
    exact_mod_cast hmag
  refine unpackFinite_injective w ?_
  rw [Unpacked.mk.injEq, unpackFinite_sign, unpackFinite_sign]
  exact ⟨hsign, hman, hexp⟩

theorem abs_valueOf {w : WidthPolicy} {x : BitVec w.totalBits} (h : kindOf w x ≠ .zero) :
    |valueOf w x| = magnitude w x := by
  rw [valueOf_eq_withSign, abs_withSign _ (magnitude_pos h).le]

theorem signOfRat_valueOf {w : WidthPolicy} {x : BitVec w.totalBits} (h : kindOf w x ≠ .zero) :
    signOfRat (valueOf w x) = signField w x := by
  rw [valueOf_eq_withSign, signOfRat_withSign _ (magnitude_pos h)]

theorem valueOf_ne_zero {w : WidthPolicy} {x : BitVec w.totalBits} (h : kindOf w x ≠ .zero) : valueOf w x ≠ 0 := by
  rw [← abs_pos, abs_valueOf h]
  exact magnitude_pos h

/-- A pattern that is no Zero is determined by its value. -/
theorem eq_of_valueOf_eq {w : WidthPolicy} {x y : BitVec w.totalBits} (hx : kindOf w x ≠ .zero)
    (h : valueOf w x = valueOf w y) : x = y := by
  have hy : kindOf w y ≠ .zero := fun hy0 => valueOf_ne_zero hx (h.trans (valueOf_of_zero hy0))
  refine eq_of_magnitude_eq ?_ ?_
  · rw [← signOfRat_valueOf hx, h, signOfRat_valueOf hy]
  · rw [← abs_valueOf hx, h, abs_valueOf hy]

/-- Correct rounding gives a finite pattern of the exact sign and magnitude back. -/
theorem RoundsTo.eq_of_exact {w : WidthPolicy} {x y : BitVec w.totalBits} (hx : (kindOf w x).isFinite = true)
    (h : RoundsTo w (signField w x) (magnitude w x) y) : y = x := by
  rw [RoundsTo, if_neg (not_le.mpr (magnitude_lt_overflowMagnitude hx))] at h
  obtain ⟨hsign, -, hnearest⟩ := h
  obtain ⟨hdist, -⟩ := hnearest x hx
  rw [sub_self, abs_zero, abs_nonpos_iff, sub_eq_zero] at hdist
  exact eq_of_magnitude_eq hsign hdist

/-! ### FLIPSIGN (R162) -/

/-- The mask is the sign bit alone. -/
theorem signMask_getLsbD (w : WidthPolicy) (i : ℕ) : w.signMask.getLsbD i = decide (i = w.totalBits - 1) := by
  have hlt : w.totalBits - 1 < w.totalBits := by cases w <;> decide
  rw [WidthPolicy.signMask, BitVec.getLsbD_ofNat, Nat.one_shiftLeft, Nat.testBit_two_pow]
  by_cases hi : i = w.totalBits - 1
  · simp [hi, hlt]
  · simp [hi, Ne.symm hi]

/-- Flipping twice is the identity. -/
@[simp] theorem flipSignBits_flipSignBits (w : WidthPolicy) (x : BitVec w.totalBits) :
    flipSignBits w (flipSignBits w x) = x := by
  simp [flipSignBits]

@[simp] theorem expField_flipSignBits (w : WidthPolicy) (x : BitVec w.totalBits) :
    expField w (flipSignBits w x) = expField w x := by
  have hmask : w.signMask.extractLsb' w.manBits w.expBits = 0 := by cases w <;> decide
  rw [expField, flipSignBits, BitVec.extractLsb'_xor, hmask]
  exact BitVec.xor_zero

@[simp] theorem manField_flipSignBits (w : WidthPolicy) (x : BitVec w.totalBits) :
    manField w (flipSignBits w x) = manField w x := by
  have hmask : w.signMask.extractLsb' 0 w.manBits = 0 := by cases w <;> decide
  rw [manField, flipSignBits, BitVec.extractLsb'_xor, hmask]
  exact BitVec.xor_zero

@[simp] theorem signField_flipSignBits (w : WidthPolicy) (x : BitVec w.totalBits) :
    signField w (flipSignBits w x) = ~~~signField w x := by
  have hmask : w.signMask.extractLsb' (w.totalBits - 1) 1 = BitVec.allOnes 1 := by cases w <;> decide
  rw [signField, flipSignBits, BitVec.extractLsb'_xor, hmask]
  exact BitVec.xor_allOnes

/-- Kinds do not read the sign (R110). -/
@[simp] theorem kindOf_flipSignBits (w : WidthPolicy) (x : BitVec w.totalBits) :
    kindOf w (flipSignBits w x) = kindOf w x := by
  simp [kindOf]

@[simp] theorem magnitude_flipSignBits (w : WidthPolicy) (x : BitVec w.totalBits) :
    magnitude w (flipSignBits w x) = magnitude w x := by
  simp [magnitude]

@[simp] theorem valueOf_flipSignBits (w : WidthPolicy) (x : BitVec w.totalBits) :
    valueOf w (flipSignBits w x) = -valueOf w x := by
  rw [valueOf_eq_withSign, valueOf_eq_withSign, magnitude_flipSignBits, signField_flipSignBits,
    withSign_of_ne (s1 := signField w x) (by simp)]

@[simp] theorem unpackFinite_flipSignBits (w : WidthPolicy) (x : BitVec w.totalBits) :
    unpackFinite w (flipSignBits w x) = { unpackFinite w x with sign := ~~~signField w x } := by
  unfold unpackFinite
  dsimp only
  rw [expField_flipSignBits, manField_flipSignBits, signField_flipSignBits]
  split <;> rfl

@[simp] theorem flipSignBits_zeroBits (w : WidthPolicy) (s : Sign) :
    flipSignBits w (zeroBits w s) = zeroBits w (~~~s) :=
  eq_of_zero_of_sign_eq (by simp) (by simp) (by simp)

/-- Settles O47: FLIPSIGN is XOR with the mask, whose one bit is the sign bit. -/
theorem flipSignTogglesOnlyTheSign : Obligations.FlipSignTogglesOnlyTheSign := by
  intro w a s
  have hbit : ∀ i, (flipSignBits w a).getLsbD i = (a.getLsbD i ^^ decide (i = w.totalBits - 1)) := fun i => by
    rw [flipSignBits, BitVec.getLsbD_xor, signMask_getLsbD]
  refine ⟨rfl, flipSignBits w a, exec_eq_respond _ _, fun i hi => ?_, ?_, ?_, kindOf_flipSignBits w a,
    exec_eq_respond _ _⟩
  · simp [hbit, hi.ne]
  · simp [hbit]
  · rw [exec_eq_respond]
    simp [answer, answerFlipSign, Instr.policy]

/-! ### what ADD and SUB drive -/

theorem exec_add_of_ok {w : WidthPolicy} {a b y : BitVec w.totalBits} (h : addBits w a b = .ok y) (s : State) :
    exec (.add w a b) s = .next (s.drive w (.value y)) := by
  simp [exec_eq_respond, answer, answerAdd, adderSub, h, Instr.policy]

/-- R161: SUB is ADD of the right operand with its sign bit flipped. -/
theorem exec_sub_eq_exec_add (w : WidthPolicy) (a b : BitVec w.totalBits) (s : State) :
    exec (.sub w a b) s = exec (.add w a (flipSignBits w b)) s := by
  simp [exec_eq_respond, answer, answerAdd, answerSub, adderSub, subBits, Instr.policy]

theorem exec_sub_of_ok {w : WidthPolicy} {a b y : BitVec w.totalBits} (h : addBits w a (flipSignBits w b) = .ok y)
    (s : State) : exec (.sub w a b) s = .next (s.drive w (.value y)) :=
  (exec_sub_eq_exec_add w a b s).trans (exec_add_of_ok h s)

/-! ### the rows T1 to T8 of ADD (R163 to R166) -/

section Rows

variable {w : WidthPolicy} {a b : BitVec w.totalBits}

theorem addBits_nan_left (ha : kindOf w a = .nan) : addBits w a b = .ok a := by
  simp [addBits, ha]

theorem addBits_nan_right (ha : kindOf w a ≠ .nan) (hb : kindOf w b = .nan) : addBits w a b = .ok b := by
  simp [addBits, ha, hb]

theorem addBits_infinities_same (ha : kindOf w a = .infinity) (hb : kindOf w b = .infinity)
    (hs : signField w a = signField w b) : addBits w a b = .ok a := by
  simp [addBits, ha, hb, hs]

theorem addBits_infinities_opposite (ha : kindOf w a = .infinity) (hb : kindOf w b = .infinity)
    (hs : signField w a ≠ signField w b) : addBits w a b = .ok (qnanBits w) := by
  simp [addBits, ha, hb, hs]

theorem addBits_infinity_left (ha : kindOf w a = .infinity) (hb : (kindOf w b).isFinite = true) :
    addBits w a b = .ok a := by
  simp [addBits, ha, isFinite_ne hb]

theorem addBits_infinity_right (ha : (kindOf w a).isFinite = true) (hb : kindOf w b = .infinity) :
    addBits w a b = .ok b := by
  simp [addBits, hb, isFinite_ne ha]

theorem addBits_zeros_same (ha : kindOf w a = .zero) (hb : kindOf w b = .zero)
    (hs : signField w a = signField w b) : addBits w a b = .ok a := by
  simp [addBits, ha, hb, hs]

theorem addBits_zeros_opposite (ha : kindOf w a = .zero) (hb : kindOf w b = .zero)
    (hs : signField w a ≠ signField w b) : addBits w a b = .ok (zeroBits w 0) := by
  simp [addBits, ha, hb, hs]

theorem addBits_zero_left (ha : kindOf w a = .zero) (hb : (kindOf w b).isFinite = true) (hb0 : kindOf w b ≠ .zero) :
    addBits w a b = .ok b := by
  simp [addBits, ha, hb0, isFinite_ne hb]

theorem addBits_zero_right (ha : (kindOf w a).isFinite = true) (ha0 : kindOf w a ≠ .zero) (hb : kindOf w b = .zero) :
    addBits w a b = .ok a := by
  simp [addBits, hb, ha0, isFinite_ne ha]

/-- R160: past the rows, ADD is the computed path. -/
theorem addBits_eq_computed (ha : (kindOf w a).isFinite = true) (ha0 : kindOf w a ≠ .zero)
    (hb : (kindOf w b).isFinite = true) (hb0 : kindOf w b ≠ .zero) : addBits w a b = addComputed w a b := by
  simp [addBits, ha0, hb0, isFinite_ne ha, isFinite_ne hb]

end Rows

/-- Settles O39: the rows one by one. -/
theorem addSpecialRows : Obligations.AddSpecialRows := by
  intro w a b s
  exact ⟨fun ha => exec_add_of_ok (addBits_nan_left ha) s,
    fun ha hb => exec_add_of_ok (addBits_nan_right ha hb) s,
    fun ha hb hs => exec_add_of_ok (addBits_infinities_same ha hb hs) s,
    fun ha hb hs => exec_add_of_ok (addBits_infinities_opposite ha hb hs) s,
    fun ha hb => exec_add_of_ok (addBits_infinity_left ha hb) s,
    fun ha hb => exec_add_of_ok (addBits_infinity_right ha hb) s,
    fun ha hb hs => exec_add_of_ok (addBits_zeros_same ha hb hs) s,
    fun ha hb hs => exec_add_of_ok (addBits_zeros_opposite ha hb hs) s,
    fun ha hb hb0 => exec_add_of_ok (addBits_zero_left ha hb hb0) s,
    fun ha ha0 hb => exec_add_of_ok (addBits_zero_right ha ha0 hb) s⟩

/-- R173 (b): every pattern but `-0` is unchanged by adding `+0`. -/
theorem addBits_plusZero {w : WidthPolicy} {x : BitVec w.totalBits} (hx : x ≠ zeroBits w 1) :
    addBits w x (zeroBits w 0) = .ok x := by
  have hzero : kindOf w (zeroBits w 0) = .zero := kindOf_zeroBits w 0
  rcases (kindOf w x).nan_or_infinity_or_finite with hk | hk | hfin
  · exact addBits_nan_left hk
  · exact addBits_infinity_left hk (by rw [hzero]; rfl)
  by_cases hk : kindOf w x = .zero
  · have hsign : signField w x ≠ 1 := fun h => hx (eq_of_zero_of_sign_eq hk (by simp) (by simpa using h))
    have hplus : signField w x = 0 := (BitVec.eq_zero_or_eq_one _).resolve_right hsign
    exact addBits_zeros_same hk hzero (by simpa using hplus)
  · exact addBits_zero_right hfin hk hzero

/-- Settles O43: a Zero other than `-0` has the sign of `+0`, and `-0` has the other one. -/
theorem plusZeroIsAddIdentity : Obligations.PlusZeroIsAddIdentity :=
  fun w s => ⟨fun _ hx => exec_add_of_ok (addBits_plusZero hx) s,
    exec_add_of_ok (addBits_zeros_opposite (by simp) (by simp) (by simp)) s⟩

/-! ### the computed path (R167 to R170) -/

/-- With equal exponents nothing is aligned away (R168). -/
theorem addOrdered_of_exp_eq {w : WidthPolicy} {u1 u2 : Unpacked} (h : u1.exp = u2.exp) {c : Sign × ℕ}
    (hc : combineAligned u1.sign u2.sign (u1.man <<< guardBits) (u2.man <<< guardBits) = c) :
    addOrdered w u1 u2 = if c.2 = 0 then .ok (zeroBits w 0) else nrp w c.1 u1.exp c.2 guardBits :=
  addOrdered_eq w u1 u2 (by simpa [alignedMan, h] using hc)

/-- R170: equal mantissas at equal exponents give `+0` when the signs differ, and when both mantissas are 0. -/
theorem addOrdered_cancel {w : WidthPolicy} {u1 u2 : Unpacked} (hexp : u1.exp = u2.exp) (hman : u1.man = u2.man)
    (h : u1.sign ≠ u2.sign ∨ u2.man = 0) : addOrdered w u1 u2 = .ok (zeroBits w 0) := by
  rw [addOrdered_of_exp_eq hexp rfl, hman]
  obtain hs | hzero := h
  · simp [combineAligned, hs]
  · simp [combineAligned, hzero]

/-- The order of two aligned mantissas matters only for the sign of a zero difference (R169). -/
theorem combineAligned_comm (s1 s2 : Sign) (A B : ℕ) :
    combineAligned s1 s2 A B = combineAligned s2 s1 B A ∨
      (combineAligned s1 s2 A B).2 = 0 ∧ (combineAligned s2 s1 B A).2 = 0 := by
  by_cases hs : s1 = s2
  · left
    simp [combineAligned, hs, add_comm]
  rcases lt_trichotomy A B with h | rfl | h
  · left
    simp [combineAligned, hs, Ne.symm hs, h.le, h.not_ge]
  · right
    simp [combineAligned, hs, Ne.symm hs]
  · left
    simp [combineAligned, hs, Ne.symm hs, h.le, h.not_ge]

theorem addOrdered_comm_of_exp_eq (w : WidthPolicy) {u1 u2 : Unpacked} (h : u1.exp = u2.exp) :
    addOrdered w u1 u2 = addOrdered w u2 u1 := by
  rw [addOrdered_of_exp_eq h rfl, addOrdered_of_exp_eq h.symm rfl, h]
  obtain hc | ⟨hzero, hzero'⟩ :=
    combineAligned_comm u1.sign u2.sign (u1.man <<< guardBits) (u2.man <<< guardBits)
  · rw [hc]
  · rw [if_pos hzero, if_pos hzero']

/-- R167: the computed path orders its operands by exponent, so their order matters at equal exponents only. -/
theorem addComputed_comm (w : WidthPolicy) (a b : BitVec w.totalBits) : addComputed w a b = addComputed w b a := by
  simp only [addComputed]
  rcases lt_trichotomy (unpackFinite w a).exp (unpackFinite w b).exp with h | h | h
  · rw [if_pos h, if_neg h.not_gt]
  · rw [if_neg h.not_lt, if_neg h.not_gt]
    exact addOrdered_comm_of_exp_eq w h
  · rw [if_neg h.not_gt, if_pos h]

/-- R170: the computed path cancels a pattern with its flipped one. -/
theorem addComputed_flipSignBits (w : WidthPolicy) (x : BitVec w.totalBits) :
    addComputed w x (flipSignBits w x) = .ok (zeroBits w 0) := by
  simp only [addComputed, unpackFinite_flipSignBits, lt_irrefl, if_false]
  exact addOrdered_cancel rfl rfl (.inl (by simp))

/-- R174: the computed path gives a nonzero finite operand back when the other one is a Zero. -/
theorem addComputed_zero {w : WidthPolicy} {z x : BitVec w.totalBits} (hz : kindOf w z = .zero)
    (hx : (kindOf w x).isFinite = true) (hx0 : kindOf w x ≠ .zero) : addComputed w z x = .ok x := by
  have hsum : valueOf w z + valueOf w x = valueOf w x := by rw [valueOf_of_zero hz, zero_add]
  obtain ⟨y, hy, hround⟩ := addComputed_roundsTo (hsum.symm ▸ valueOf_ne_zero hx0)
  rw [hsum, signOfRat_valueOf hx0, abs_valueOf hx0] at hround
  rw [hy, hround.eq_of_exact hx]

theorem unpackFinite_of_zero {w : WidthPolicy} {z : BitVec w.totalBits} (h : kindOf w z = .zero) :
    unpackFinite w z = { sign := signField w z, man := 0, exp := w.minExp } := by
  obtain ⟨he, hm⟩ := (kindOf_eq_zero_iff w z).mp h
  simp [unpackFinite, he, hm]

/-- R174: the computed path gives `+0` for two Zeros, even two `-0`. -/
theorem addComputed_zeros {w : WidthPolicy} {z z' : BitVec w.totalBits} (hz : kindOf w z = .zero)
    (hz' : kindOf w z' = .zero) : addComputed w z z' = .ok (zeroBits w 0) := by
  simp only [addComputed, unpackFinite_of_zero hz, unpackFinite_of_zero hz', lt_irrefl, if_false]
  exact addOrdered_cancel rfl rfl (.inr rfl)

/-- Settles O44: a sum of the format rounds to itself, and two mantissas of 0 combine to 0. -/
theorem zeroRowsAgreeWithComputedPath : Obligations.ZeroRowsAgreeWithComputedPath := by
  refine ⟨fun w z x hz hx hx0 => ?_, fun _ _ _ hz hz' => addComputed_zeros hz hz'⟩
  have hzx := addComputed_zero hz hx hx0
  exact ⟨hzx, addComputed_comm w z x ▸ hzx⟩

/-! ### cancellation and commutativity (R170, R173) -/

/-- R173 (c): a finite pattern and its flipped one add to `+0`. -/
theorem addBits_flipSignBits {w : WidthPolicy} {x : BitVec w.totalBits} (hx : (kindOf w x).isFinite = true) :
    addBits w x (flipSignBits w x) = .ok (zeroBits w 0) := by
  by_cases hx0 : kindOf w x = .zero
  · exact addBits_zeros_opposite hx0 (by simpa using hx0) (by simp)
  · rw [addBits_eq_computed hx hx0 (by simpa using hx) (by simpa using hx0), addComputed_flipSignBits]

/-- Settles O41: only the flipped pattern cancels a nonzero one. -/
theorem exactCancellationIsPlusZero : Obligations.ExactCancellationIsPlusZero := by
  refine ⟨fun w a b s ha _ ha0 hsum => ?_, fun w x s hx => exec_add_of_ok (addBits_flipSignBits hx) s⟩
  have hb : flipSignBits w a = b := by
    refine eq_of_valueOf_eq (by simpa using ha0) ?_
    rw [valueOf_flipSignBits]
    linarith
  exact hb ▸ exec_add_of_ok (addBits_flipSignBits ha) s

theorem addBits_comm_of_finite {w : WidthPolicy} {a b : BitVec w.totalBits} (ha : (kindOf w a).isFinite = true)
    (hb : (kindOf w b).isFinite = true) : addBits w a b = addBits w b a := by
  by_cases ha0 : kindOf w a = .zero <;> by_cases hb0 : kindOf w b = .zero
  · by_cases hs : signField w a = signField w b
    · rw [eq_of_zero_of_sign_eq ha0 hb0 hs]
    · rw [addBits_zeros_opposite ha0 hb0 hs, addBits_zeros_opposite hb0 ha0 (Ne.symm hs)]
  · rw [addBits_zero_left ha0 hb hb0, addBits_zero_right hb hb0 ha0]
  · rw [addBits_zero_right ha ha0 hb0, addBits_zero_left hb0 ha ha0]
  · rw [addBits_eq_computed ha ha0 hb hb0, addBits_eq_computed hb hb0 ha ha0, addComputed_comm]

/-- R173 (a): the rows of ADD are symmetric but for two NaNs. -/
theorem addBits_comm {w : WidthPolicy} {a b : BitVec w.totalBits} (h : ¬(kindOf w a = .nan ∧ kindOf w b = .nan)) :
    addBits w a b = addBits w b a := by
  by_cases ha : kindOf w a = .nan
  · have hb : kindOf w b ≠ .nan := fun hb => h ⟨ha, hb⟩
    rw [addBits_nan_left ha, addBits_nan_right hb ha]
  by_cases hb : kindOf w b = .nan
  · rw [addBits_nan_right ha hb, addBits_nan_left hb]
  obtain hinf | hfin := (kindOf w a).nan_or_infinity_or_finite.resolve_left ha <;>
    obtain hinf' | hfin' := (kindOf w b).nan_or_infinity_or_finite.resolve_left hb
  · by_cases hs : signField w a = signField w b
    · rw [eq_of_infinity_of_sign_eq hinf hinf' hs]
    · rw [addBits_infinities_opposite hinf hinf' hs, addBits_infinities_opposite hinf' hinf (Ne.symm hs)]
  · rw [addBits_infinity_left hinf hfin', addBits_infinity_right hfin' hinf]
  · rw [addBits_infinity_right hfin hinf', addBits_infinity_left hinf' hfin]
  · exact addBits_comm_of_finite hfin hfin'

/-- Settles O42: ADD drives what `addBits` returns, which is symmetric. -/
theorem addCommutes : Obligations.AddCommutes := by
  intro w a b s h
  obtain ⟨y, hy⟩ := addBits_returns w a b
  rw [exec_add_of_ok hy, exec_add_of_ok (addBits_comm h ▸ hy)]

/-! ### SUB (R161) -/

/-- Settles O45: each case is ADD's row for the flipped right operand. -/
theorem subIsAddOfFlippedRight : Obligations.SubIsAddOfFlippedRight := by
  refine ⟨fun w a b s => ⟨rfl, exec_sub_eq_exec_add w a b s, fun ha => exec_sub_of_ok (addBits_nan_left ha) s,
    fun ha hb => exec_sub_of_ok (addBits_nan_right ha (by simpa using hb)) s,
    fun ha => exec_sub_of_ok (addBits_flipSignBits ha) s,
    fun ha => exec_sub_of_ok (addBits_infinities_opposite ha (by simpa using ha) (by simp)) s⟩, fun w s => ?_⟩
  refine ⟨exec_sub_of_ok ?_ s, exec_sub_of_ok ?_ s, exec_sub_of_ok ?_ s, exec_sub_of_ok ?_ s⟩ <;>
    rw [flipSignBits_zeroBits]
  · exact addBits_zeros_opposite (by simp) (by simp) (by simp)
  · exact addBits_zeros_same (by simp) (by simp) (by simp)
  · exact addBits_zeros_opposite (by simp) (by simp) (by simp)
  · exact addBits_zeros_same (by simp) (by simp) (by simp)

/-- Settles O46: a difference is the sum with the flipped right operand, whose value is the negated one. -/
theorem subRoundsCorrectly : Obligations.SubRoundsCorrectly := by
  intro w a b s ha hb hne
  have hdiff : valueOf w a - valueOf w b = valueOf w a + valueOf w (flipSignBits w b) := by
    rw [valueOf_flipSignBits, sub_eq_add_neg]
  rw [hdiff] at hne ⊢
  rw [exec_sub_eq_exec_add]
  exact addRoundsCorrectly w a (flipSignBits w b) s ha (by simpa using hb) hne

/-! ### NaN in, NaN out (R164, R192, R212) -/

theorem exec_mul_of_ok {w : WidthPolicy} {a b y : BitVec w.totalBits} (h : mulBits w a b = .ok y) (s : State) :
    exec (.mul w a b) s = .next (s.drive w (.value y)) := by
  simp [exec_eq_respond, answer, answerMul, h, Instr.policy]

theorem exec_div_of_ok {w : WidthPolicy} {a b y : BitVec w.totalBits} (h : divBits w a b = .ok y) (s : State) :
    exec (.div w a b) s = .next (s.drive w (.value y)) := by
  simp [exec_eq_respond, answer, answerDiv, h, Instr.policy]

/-- An operator whose first two rows return a NaN operand, the left one before the right one. -/
def ReturnsNaNOperand (w : WidthPolicy)
    (op : BitVec w.totalBits → BitVec w.totalBits → Except FaultCode (BitVec w.totalBits)) : Prop :=
  ∀ a b, (kindOf w a = .nan → op a b = .ok a) ∧ (kindOf w a ≠ .nan → kindOf w b = .nan → op a b = .ok b)

theorem addBits_returnsNaNOperand (w : WidthPolicy) : ReturnsNaNOperand w (addBits w) :=
  fun _ _ => ⟨addBits_nan_left, addBits_nan_right⟩

theorem mulBits_returnsNaNOperand (w : WidthPolicy) : ReturnsNaNOperand w (mulBits w) :=
  fun _ _ => ⟨fun ha => by simp [mulBits, ha], fun ha hb => by simp [mulBits, ha, hb]⟩

theorem divBits_returnsNaNOperand (w : WidthPolicy) : ReturnsNaNOperand w (divBits w) :=
  fun _ _ => ⟨fun ha => by simp [divBits, ha], fun ha hb => by simp [divBits, ha, hb]⟩

/-- Such an operator gives a NaN for a NaN. -/
theorem ReturnsNaNOperand.nan {w : WidthPolicy}
    {op : BitVec w.totalBits → BitVec w.totalBits → Except FaultCode (BitVec w.totalBits)}
    (hop : ReturnsNaNOperand w op) {a b : BitVec w.totalBits} (h : kindOf w a = .nan ∨ kindOf w b = .nan) :
    ∃ y, op a b = .ok y ∧ kindOf w y = .nan := by
  obtain ⟨hleft, hright⟩ := hop a b
  by_cases ha : kindOf w a = .nan
  · exact ⟨a, hleft ha, ha⟩
  · have hb := h.resolve_left ha
    exact ⟨b, hright ha hb, hb⟩

/-- Settles O56: each operator returns a NaN operand; SUB's right one has its sign flipped, which keeps its Kind. -/
theorem naNInNaNOut : Obligations.NaNInNaNOut := by
  intro w a b s h
  have hflip : kindOf w a = .nan ∨ kindOf w (flipSignBits w b) = .nan := by simpa using h
  obtain ⟨yadd, hadd, hyadd⟩ := (addBits_returnsNaNOperand w).nan h
  obtain ⟨ysub, hsub, hysub⟩ := (addBits_returnsNaNOperand w).nan hflip
  obtain ⟨ymul, hmul, hymul⟩ := (mulBits_returnsNaNOperand w).nan h
  obtain ⟨ydiv, hdiv, hydiv⟩ := (divBits_returnsNaNOperand w).nan h
  exact ⟨⟨yadd, exec_add_of_ok hadd s, hyadd⟩, ⟨ysub, exec_sub_of_ok hsub s, hysub⟩,
    ⟨ymul, exec_mul_of_ok hmul s, hymul⟩, ⟨ydiv, exec_div_of_ok hdiv s, hydiv⟩⟩

end Sys2Proof.Machine

/-!
The fp_multiplier: MUL's rows, commutativity and the product with 1.0 (spec/45_multiplier.md R190 to R199).

Past the two NaN rows MUL does not tell its operands apart (`mulBits_comm_of_ne_nan`), so each row with the special
operand on the right is the row with it on the left.  The product with 1.0 has the magnitude of the other operand, which
correct rounding gives back.
-/

namespace Sys2Proof.Machine

/-! ### commutativity (R199) -/

/-- R196: the exponents are added and the mantissas multiplied, in either order. -/
theorem mulComputed_comm (w : WidthPolicy) (s : Sign) (a b : BitVec w.totalBits) :
    mulComputed w s a b = mulComputed w s b a := by
  simp only [mulComputed]
  rw [add_comm, Nat.mul_comm]

section Rows

variable {w : WidthPolicy} {a b : BitVec w.totalBits}

/-- R191: the rows past the NaN rows ask for a Kind of either operand, and the sign is a XOR. -/
theorem mulBits_comm_of_ne_nan (ha : kindOf w a ≠ .nan) (hb : kindOf w b ≠ .nan) : mulBits w a b = mulBits w b a := by
  simp only [mulBits, if_neg ha, if_neg hb]
  simp only [or_comm, BitVec.xor_comm, mulComputed_comm w _ b a]

theorem mulBits_nan_left (ha : kindOf w a = .nan) : mulBits w a b = .ok a :=
  (mulBits_returnsNaNOperand w a b).left ha

theorem mulBits_nan_right (ha : kindOf w a ≠ .nan) (hb : kindOf w b = .nan) : mulBits w a b = .ok b :=
  (mulBits_returnsNaNOperand w a b).right ha hb

/-- R199 (a): only two NaNs tell the operands apart. -/
theorem mulBits_comm (h : ¬(kindOf w a = .nan ∧ kindOf w b = .nan)) : mulBits w a b = mulBits w b a := by
  by_cases ha : kindOf w a = .nan
  · have hb : kindOf w b ≠ .nan := fun hb => h ⟨ha, hb⟩
    rw [mulBits_nan_left ha, mulBits_nan_right hb ha]
  by_cases hb : kindOf w b = .nan
  · rw [mulBits_nan_right ha hb, mulBits_nan_left hb]
  · exact mulBits_comm_of_ne_nan ha hb

/-! ### the rows T1 to T4 (R192 to R194) -/

theorem mulBits_infinity_zero (ha : kindOf w a = .infinity) (hb : kindOf w b = .zero) :
    mulBits w a b = .ok (qnanBits w) := by
  simp [mulBits, ha, hb]

theorem mulBits_infinity_left (ha : kindOf w a = .infinity) (hb : kindOf w b ≠ .nan) (hb0 : kindOf w b ≠ .zero) :
    mulBits w a b = .ok (infBits w (signField w a ^^^ signField w b)) := by
  simp [mulBits, ha, hb, hb0]

theorem mulBits_zero_left (ha : kindOf w a = .zero) (hb : (kindOf w b).isFinite = true) :
    mulBits w a b = .ok (zeroBits w (signField w a ^^^ signField w b)) := by
  simp [mulBits, ha, isFinite_ne hb]

theorem mulBits_zero_infinity (ha : kindOf w a = .zero) (hb : kindOf w b = .infinity) :
    mulBits w a b = .ok (qnanBits w) := by
  rw [mulBits_comm (by simp [ha]), mulBits_infinity_zero hb ha]

theorem mulBits_infinity_right (ha : kindOf w a ≠ .nan) (ha0 : kindOf w a ≠ .zero) (hb : kindOf w b = .infinity) :
    mulBits w a b = .ok (infBits w (signField w a ^^^ signField w b)) := by
  rw [mulBits_comm (by simp [ha]), mulBits_infinity_left hb ha ha0, BitVec.xor_comm]

theorem mulBits_zero_right (ha : (kindOf w a).isFinite = true) (hb : kindOf w b = .zero) :
    mulBits w a b = .ok (zeroBits w (signField w a ^^^ signField w b)) := by
  rw [mulBits_comm (by simp [hb]), mulBits_zero_left hb ha, BitVec.xor_comm]

end Rows

/-- Settles O48: the rows one by one. -/
theorem mulSpecialRows : Obligations.MulSpecialRows := by
  intro w a b s
  exact ⟨fun ha => exec_mul_of_ok (mulBits_nan_left ha) s,
    fun ha hb => exec_mul_of_ok (mulBits_nan_right ha hb) s,
    fun ha hb => exec_mul_of_ok (mulBits_infinity_zero ha hb) s,
    fun ha hb => exec_mul_of_ok (mulBits_zero_infinity ha hb) s,
    fun ha hb hb0 => exec_mul_of_ok (mulBits_infinity_left ha hb hb0) s,
    fun ha ha0 hb => exec_mul_of_ok (mulBits_infinity_right ha ha0 hb) s,
    fun ha hb => exec_mul_of_ok (mulBits_zero_left ha hb) s,
    fun ha hb => exec_mul_of_ok (mulBits_zero_right ha hb) s⟩

/-- Settles O50: MUL drives what `mulBits` returns, which is symmetric. -/
theorem mulCommutes : Obligations.MulCommutes := by
  intro w a b s h
  obtain ⟨y, hy⟩ := mulBits_returns w a b
  rw [exec_mul_of_ok hy, exec_mul_of_ok (mulBits_comm h ▸ hy)]

/-! ### the product with 1.0 (R140) -/

/-- The bias is an exponent field of the Normals. -/
theorem bias_bounds (w : WidthPolicy) : 0 < w.bias ∧ w.bias < w.maxBiasedExp := by cases w <;> decide

/-- 1.0 is a Normal. -/
theorem kindOf_one (w : WidthPolicy) : kindOf w (composeRaw w 0 w.bias 0) = .normal := by
  obtain ⟨hpos, hlt⟩ := bias_bounds w
  have hfield : w.bias < 2 ^ w.expBits := by rw [← maxBiasedExp_succ]; omega
  refine kindOf_of_fits ?_
  rw [expField_composeRaw, Nat.mod_eq_of_lt hfield]
  exact ⟨hpos, hlt⟩

/-- 1.0 has an empty stored mantissa at exponent 0. -/
theorem magnitude_one (w : WidthPolicy) : magnitude w (composeRaw w 0 w.bias 0) = 1 := by
  obtain ⟨hpos, hlt⟩ := bias_bounds w
  rw [magnitude_composeRaw_normal 0 hpos.ne' hlt.le (by positivity), sub_self]
  simp

/-- R190: a Zero times 1.0 is the Zero of its sign, and any other product rounds the magnitude of `x` itself. -/
theorem mulBits_one {w : WidthPolicy} {x : BitVec w.totalBits} (hx : (kindOf w x).isFinite = true) :
    mulBits w x (composeRaw w 0 w.bias 0) = .ok x := by
  have hone := kindOf_one w
  have hfin : (kindOf w (composeRaw w 0 w.bias 0)).isFinite = true := by rw [hone]; rfl
  have hsign : signField w x ^^^ signField w (composeRaw w 0 w.bias 0) = signField w x := by
    simp [signField_composeRaw]
  by_cases hx0 : kindOf w x = .zero
  · rw [mulBits_zero_left hx0 hfin, hsign, eq_of_zero_of_sign_eq (kindOf_zeroBits w _) hx0 (signField_zeroBits w _)]
  · have hone0 : kindOf w (composeRaw w 0 w.bias 0) ≠ .zero := by rw [hone]; decide
    obtain ⟨y, hy, hround⟩ := mulComputed_roundsTo (signField w x) hx0 hone0
    rw [magnitude_one, mul_one] at hround
    rw [mulBits_eq_computed hx hfin hx0 hone0, hsign, hy, hround.eq_of_exact hx]

/-- Settles O51: MUL drives what `mulBits` returns. -/
theorem mulByOneIsIdentity : Obligations.MulByOneIsIdentity :=
  fun _ _ s hx => exec_mul_of_ok (mulBits_one hx) s

end Sys2Proof.Machine

/-!
The fp_divider: DIV's rows, the closed form of its restoring loop and its exact quotients
(spec/46_divider.md R210 to R222).

The loop's quotient and remainder are those of one division (`longDivide_eq`), so R216 is about the quotient of two
`p`-bit mantissas: comparing it with a power of two multiplies the divisor out.  The exact quotients of R222 are one
fact, that rounding does not change a quotient which is a magnitude of the format.
-/

namespace Sys2Proof.Machine

section Rows

variable {w : WidthPolicy} {a b : BitVec w.totalBits}

/-! ### the rows T1 to T6 (R211 to R213) -/

theorem divBits_nan_left (ha : kindOf w a = .nan) : divBits w a b = .ok a :=
  (divBits_returnsNaNOperand w a b).left ha

theorem divBits_nan_right (ha : kindOf w a ≠ .nan) (hb : kindOf w b = .nan) : divBits w a b = .ok b :=
  (divBits_returnsNaNOperand w a b).right ha hb

theorem divBits_infinities (ha : kindOf w a = .infinity) (hb : kindOf w b = .infinity) :
    divBits w a b = .ok (qnanBits w) := by
  simp [divBits, ha, hb]

theorem divBits_infinity_left (ha : kindOf w a = .infinity) (hb : (kindOf w b).isFinite = true) :
    divBits w a b = .ok (infBits w (signField w a ^^^ signField w b)) := by
  simp [divBits, ha, isFinite_ne hb]

theorem divBits_infinity_right (ha : (kindOf w a).isFinite = true) (hb : kindOf w b = .infinity) :
    divBits w a b = .ok (zeroBits w (signField w a ^^^ signField w b)) := by
  simp [divBits, isFinite_ne ha, hb]

theorem divBits_zeros (ha : kindOf w a = .zero) (hb : kindOf w b = .zero) : divBits w a b = .ok (qnanBits w) := by
  simp [divBits, ha, hb]

theorem divBits_zero_right (ha : (kindOf w a).isFinite = true) (ha0 : kindOf w a ≠ .zero) (hb : kindOf w b = .zero) :
    divBits w a b = .ok (infBits w (signField w a ^^^ signField w b)) := by
  simp [divBits, isFinite_ne ha, ha0, hb]

theorem divBits_zero_left (ha : kindOf w a = .zero) (hb : (kindOf w b).isFinite = true) (hb0 : kindOf w b ≠ .zero) :
    divBits w a b = .ok (zeroBits w (signField w a ^^^ signField w b)) := by
  simp [divBits, ha, isFinite_ne hb, hb0]

end Rows

/-- Settles O52: the rows one by one. -/
theorem divSpecialRows : Obligations.DivSpecialRows := by
  intro w a b s
  exact ⟨fun ha => exec_div_of_ok (divBits_nan_left ha) s,
    fun ha hb => exec_div_of_ok (divBits_nan_right ha hb) s,
    fun ha hb => exec_div_of_ok (divBits_infinities ha hb) s,
    fun ha hb => exec_div_of_ok (divBits_infinity_left ha hb) s,
    fun ha hb => exec_div_of_ok (divBits_infinity_right ha hb) s,
    fun ha hb => exec_div_of_ok (divBits_zeros ha hb) s,
    fun ha ha0 hb => exec_div_of_ok (divBits_zero_right ha ha0 hb) s,
    fun ha hb hb0 => exec_div_of_ok (divBits_zero_left ha hb hb0) s⟩

/-! ### the closed form of the restoring loop (R216) -/

/-- R216: the quotient is above `2^(MB + 1)`, the divisor being at most `2^(MB + 1) - 1`. -/
theorem two_pow_lt_quotient {M m1 m2 : ℕ} (hm1 : 2 ^ M ≤ m1) (hm2 : 2 ^ M ≤ m2) (hm2' : m2 < 2 ^ (M + 1)) :
    2 ^ (M + 1) < m1 * 2 ^ (M + 2) / m2 := by
  have hpos : 0 < m2 := lt_of_lt_of_le (by positivity) hm2
  refine Nat.succ_le_iff.mp ((Nat.le_div_iff_mul_le hpos).mpr ?_)
  calc (2 ^ (M + 1) + 1) * m2 ≤ (2 ^ (M + 1) + 1) * (2 ^ (M + 1) - 1) := by gcongr; omega
    _ = 2 ^ (M + 1) * 2 ^ (M + 1) - 1 * 1 := (Nat.mul_self_sub_mul_self_eq _ _).symm
    _ ≤ 2 ^ (M + 1) * 2 ^ (M + 1) := Nat.sub_le _ _
    _ = 2 ^ M * 2 ^ (M + 2) := by ring
    _ ≤ m1 * 2 ^ (M + 2) := by gcongr

/-- R216: the quotient of the mantissas is below 1 exactly when the dividend's mantissa is the smaller one. -/
theorem shifted_quotient_lt_iff (k : ℕ) {m1 m2 : ℕ} (hm2 : 0 < m2) : m1 * 2 ^ k / m2 < 2 ^ k ↔ m1 < m2 := by
  rw [Nat.div_lt_iff_lt_mul hm2, mul_comm, Nat.mul_lt_mul_left (by positivity)]

/-- R216: the quotient has `MB + 2` bits for a smaller dividend and `MB + 3` bits otherwise. -/
theorem bitLength_quotient {M m1 m2 : ℕ} (hm1 : 2 ^ M ≤ m1) (hm1' : m1 < 2 ^ (M + 1)) (hm2 : 2 ^ M ≤ m2)
    (hm2' : m2 < 2 ^ (M + 1)) : bitLength (m1 * 2 ^ (M + 2) / m2) = if m1 < m2 then M + 2 else M + 3 := by
  obtain ⟨hlo, hhi⟩ := quotient_bounds hm1 hm1' hm2 hm2'
  have hiff := shifted_quotient_lt_iff (M + 2) (m1 := m1) (lt_of_lt_of_le (by positivity) hm2)
  split_ifs with hlt
  · exact bitLength_eq_succ_iff.mpr ⟨hlo, hiff.mpr hlt⟩
  · exact bitLength_eq_succ_iff.mpr ⟨not_lt.mp (mt hiff.mp hlt), hhi⟩

/-- Settles O53: the loop is one division (`longDivide_eq`), and its quotient is that of two `p`-bit mantissas. -/
theorem longDivideClosedForm : Obligations.LongDivideClosedForm := by
  intro w m1 m2 hm1 hm1' hm2 hm2'
  rw [hidden_eq] at hm1 hm2
  have hpos : 0 < m2 := lt_of_lt_of_le (by positivity) hm2
  obtain ⟨-, hhi⟩ := quotient_bounds hm1 hm1' hm2 hm2'
  rw [longDivide_eq w (by rw [pow_succ] at hm1'; omega), Nat.shiftLeft_eq]
  exact ⟨rfl, Nat.mod_eq_sub_div_mul, Nat.mod_lt _ hpos, two_pow_lt_quotient hm1 hm2 hm2', hhi,
    bitLength_quotient hm1 hm1' hm2 hm2'⟩

/-! ### exact quotients (R222) -/

/-- DIV answers with the pattern `z` whose sign and magnitude are those of the exact quotient. -/
theorem divBits_of_exact {w : WidthPolicy} {a b z : BitVec w.totalBits}
    (ha : (kindOf w a).isFinite = true) (hb : (kindOf w b).isFinite = true)
    (ha0 : kindOf w a ≠ .zero) (hb0 : kindOf w b ≠ .zero) (hz : (kindOf w z).isFinite = true)
    (hsign : signField w a ^^^ signField w b = signField w z) (hmag : magnitude w a / magnitude w b = magnitude w z) :
    divBits w a b = .ok z := by
  obtain ⟨y, hy, hround⟩ := divComputed_roundsTo (signField w z) ha0 hb0
  rw [hmag] at hround
  rw [divBits_eq_computed ha hb ha0 hb0, hsign, hy, hround.eq_of_exact hz]

theorem isFinite_one (w : WidthPolicy) : (kindOf w (composeRaw w 0 w.bias 0)).isFinite = true := by
  rw [kindOf_one]; rfl

/-- R222 (c): equal signs cancel, and so do equal magnitudes. -/
theorem divBits_self {w : WidthPolicy} {x : BitVec w.totalBits} (hx : (kindOf w x).isFinite = true)
    (hx0 : kindOf w x ≠ .zero) : divBits w x x = .ok (composeRaw w 0 w.bias 0) :=
  divBits_of_exact hx hx hx0 hx0 (isFinite_one w) (by simp [signField_composeRaw])
    (by rw [div_self (magnitude_pos hx0).ne', magnitude_one])

/-- R222 (c): 1.0 has sign 0 and magnitude 1. -/
theorem divBits_one {w : WidthPolicy} {x : BitVec w.totalBits} (hx : (kindOf w x).isFinite = true)
    (hx0 : kindOf w x ≠ .zero) : divBits w x (composeRaw w 0 w.bias 0) = .ok x :=
  divBits_of_exact hx (isFinite_one w) hx0 (by rw [kindOf_one]; decide) hx
    (by simp [signField_composeRaw]) (by rw [magnitude_one, div_one])

/-- Settles O55: DIV drives what `divBits` returns. -/
theorem divExactCases : Obligations.DivExactCases :=
  fun _ _ s hx hx0 => ⟨exec_div_of_ok (divBits_self hx hx0) s, exec_div_of_ok (divBits_one hx hx0) s⟩

end Sys2Proof.Machine

/-!
Which lines fault and what the value operations return (spec/47_value_ops.md R240 to R243, spec/60_exceptions.md R261 to
R269).

A line shows a fault exactly when `faultOf` names it (`faultOf_eq_some_of_shown`, `exec_faults`), and
`faultOf` names `RS_SHIFT_RANGE` and `ILLEGAL_OP` for the lines that R263 and R261 say.
-/

namespace Sys2Proof.Machine

/-! ### the fault a line shows -/

/-- A line shows no fault but the one the rules give it. -/
theorem faultOf_eq_some_of_shown {i : Instr} {s t : State} {c : FaultCode} (h : exec i s = .next t)
    (hfault : t.outputs i.policy = .fault c) : faultOf i = some c := by
  obtain ⟨hshown, -⟩ := exec_shows h
  rw [hshown] at hfault
  cases hf : faultOf i with
  | some c' =>
    rw [answer_of_faultOf_some hf] at hfault
    cases hfault
    rfl
  | none =>
    obtain ⟨o, ho, hport⟩ := answer_of_faultOf_none hf
    rw [ho, shownBy_ok] at hfault
    rw [hfault] at hport
    cases hport

/-- R263: a shift out of range alone raises `RS_SHIFT_RANGE`. -/
theorem roundShift_of_faultOf {i : Instr} (h : faultOf i = some .rsShiftRange) :
    ∃ w man n, i = .roundShift w man n ∧ w.manBits + 1 < n.toNat := by
  cases i with
  | roundShift w man n => exact ⟨w, man, n, rfl, by simpa [faultOf] using h⟩
  | _ => cases h

/-- R261: the reserved lines alone raise `ILLEGAL_OP`. -/
theorem reserved_of_faultOf {i : Instr} (h : faultOf i = some .illegalOp) :
    ∃ w, i = .reserved13 w ∨ i = .reserved14 w ∨ i = .reserved15 w := by
  cases i with
  | reserved13 w => exact ⟨w, .inl rfl⟩
  | reserved14 w => exact ⟨w, .inr (.inl rfl)⟩
  | reserved15 w => exact ⟨w, .inr (.inr rfl)⟩
  | roundShift => simp [faultOf] at h
  | _ => cases h

/-- A line's select is below 13 exactly when it selects an operation (R69, R70). -/
theorem encode_op_lt_iff_selectsOperation : ∀ i, Laws.EncodedSelect.Statement i
  | .add w a b => Laws.EncodedSelect.add w a b
  | .sub w a b => Laws.EncodedSelect.sub w a b
  | .mul w a b => Laws.EncodedSelect.mul w a b
  | .div w a b => Laws.EncodedSelect.div w a b
  | .xorBits w a b => Laws.EncodedSelect.xorBits w a b
  | .andBits w a b => Laws.EncodedSelect.andBits w a b
  | .fromBits w a => Laws.EncodedSelect.fromBits w a
  | .toBits w a => Laws.EncodedSelect.toBits w a
  | .decompose w a => Laws.EncodedSelect.decompose w a
  | .compose w sign exp man => Laws.EncodedSelect.compose w sign exp man
  | .classify w a => Laws.EncodedSelect.classify w a
  | .roundShift w man n => Laws.EncodedSelect.roundShift w man n
  | .flipSign w a => Laws.EncodedSelect.flipSign w a
  | .reserved13 w => Laws.EncodedSelect.reserved13 w
  | .reserved14 w => Laws.EncodedSelect.reserved14 w
  | .reserved15 w => Laws.EncodedSelect.reserved15 w

/-- A request with `op` 13, 14 or 15 decodes to a line that raises `ILLEGAL_OP`. -/
theorem faultOf_of_select {i : Instr} {r : Request i.policy} (hi : decode i.policy r = i) (hop : 13 ≤ r.op.toNat) :
    faultOf i = some .illegalOp := by
  obtain ⟨hselect, -⟩ := (decodeInvertsEncode i r).mp hi
  rw [hselect] at hop
  exact faultOf_of_reserved (Bool.eq_false_iff.mpr (mt (encode_op_lt_iff_selectsOperation i).mpr (not_lt.mpr hop)))

/-- What a line with a fault answers: `fault` is 1 with the fault's code, and every input port stays (R79, R260). -/
theorem exec_faults {i : Instr} {c : FaultCode} (h : faultOf i = some c) (s : State) :
    ∃ t, exec i s = .next t ∧ t.outputs i.policy = .fault c ∧ (t.outputs i.policy).faultPort = 1 ∧
      (t.outputs i.policy).faultCodePort = c.code ∧ ∀ w, t.inputs w = s.inputs w := by
  refine ⟨_, exec_of_faultOf_some h s, ?_, ?_, ?_, ?_⟩ <;> simp [Response.faultPort, Response.faultCodePort]

/-- Settles O35: out of range `faultOf` names the fault, and it names this fault for no other line. -/
theorem shiftRangeFault : Obligations.ShiftRangeFault := by
  refine ⟨fun w man n s hn => ?_, fun n => ⟨Iff.rfl, Iff.rfl⟩, fun i s t h hfault =>
    roundShift_of_faultOf (faultOf_eq_some_of_shown h hfault)⟩
  obtain ⟨t, ht, hshown, hport, hcode, -⟩ := exec_faults (faultOf_roundShift hn man) s
  exact ⟨t, ht, hshown, hport, hcode⟩

/-- Settles O58: a select from 13 up decodes to a reserved line, and only those raise `ILLEGAL_OP`. -/
theorem reservedSelectsRaiseIllegalOp : Obligations.ReservedSelectsRaiseIllegalOp := by
  refine ⟨fun w r s hop => ?_, fun w i s hi => ?_, fun i s t h hfault =>
    reserved_of_faultOf (faultOf_eq_some_of_shown h hfault)⟩
  · obtain ⟨i, hi⟩ : ∃ i, decode w r = i := ⟨_, rfl⟩
    obtain rfl : i.policy = w := hi ▸ decode_policy w r
    obtain ⟨t, ht, hshown, hport, hcode, hin⟩ := exec_faults (faultOf_of_select hi hop) (s.present _ r)
    exact ⟨t, by rw [hi, ht], hshown, hport, hcode, by rw [hin, State.present_inputs]⟩
  · obtain rfl | rfl | rfl := hi <;> exact ⟨_, exec_of_faultOf_some rfl s, s.raiseFault_outputs w _⟩

/-! ### lines that return -/

/-- Settles O4: a response is driven or a fault is raised, and both are next states. -/
theorem everyLineIsAnswered : Obligations.EveryLineIsAnswered := by
  intro i s
  obtain ⟨t, ht, -⟩ := respond_shows i.policy (answer i) s
  exact ⟨t, (exec_eq_respond i s).trans ht⟩

/-- Settles O11: well-formed lines raise no fault, and a run goes on past such lines to its end. -/
theorem wellFormedRunsAreSafe : Obligations.WellFormedRunsAreSafe := by
  intro lines s hlines hs
  obtain ⟨t, ht, hrun⟩ := runLines_append_of_no_fault (fun i hi => faultOf_of_wellFormed (hlines i hi)) hs []
  exact ⟨t, by simpa [runLines] using hrun, ht⟩

/-- Settles O38: each operator returns a pattern, because `nrp` never asks for a shift out of range (R145). -/
theorem arithmeticAlwaysReturnsAValue : Obligations.ArithmeticAlwaysReturnsAValue := by
  intro w a b s
  obtain ⟨sum, hsum⟩ := addBits_returns w a b
  obtain ⟨difference, hdifference⟩ := addBits_returns w a (flipSignBits w b)
  obtain ⟨product, hproduct⟩ := mulBits_returns w a b
  obtain ⟨quotient, hquotient⟩ := divBits_returns w a b
  exact ⟨⟨sum, exec_add_of_ok hsum s⟩, ⟨difference, exec_sub_of_ok hdifference s⟩,
    ⟨product, exec_mul_of_ok hproduct s⟩, ⟨quotient, exec_div_of_ok hquotient s⟩⟩

/-- Settles O57: the four operations return on `y` without a look at the operands' Kinds. -/
theorem valueOperationResults : Obligations.ValueOperationResults := by
  intro w a b s
  exact ⟨rfl, rfl, rfl, rfl,
    ⟨a ^^^ b, exec_eq_respond _ s, fun _ _ => BitVec.getLsbD_xor⟩,
    ⟨a &&& b, exec_eq_respond _ s, fun _ _ => BitVec.getLsbD_and⟩,
    exec_eq_respond _ s, exec_eq_respond _ s⟩

end Sys2Proof.Machine

/-!
The contract of every operation on the ports (spec/30_encoding.md R69, spec/70_reset_and_hazards.md R291, R294).

`meetsContract_answer` is the one fact about the operations: what a line returns or raises meets the contract of every
request that decodes to it.  The four operators meet theirs row by row, past the rows by correct rounding; the others by
definition.  The outputs of a settled state, of a presented request and of a step are all the answer to the line that
the input ports decode to, so every statement about them is this fact read through `State.settle_outputs` or
`step_shows`.
-/

namespace Sys2Proof.Machine

/-! ### the four operators meet their contracts -/

/-- A Kind that is neither NaN nor infinity is finite (spec/00_scope.md R16). -/
theorem Kind.isFinite_of_ne {k : Kind} (hnan : k ≠ .nan) (hinf : k ≠ .infinity) : k.isFinite = true :=
  (k.nan_or_infinity_or_finite.resolve_left hnan).resolve_left hinf

section Operators

variable {w : WidthPolicy} {a b y : BitVec w.totalBits}

/-- R170: only the flipped pattern cancels a nonzero finite one. -/
theorem addBits_of_sum_eq_zero (ha : (kindOf w a).isFinite = true) (ha0 : kindOf w a ≠ .zero)
    (hsum : valueOf w a + valueOf w b = 0) : addBits w a b = .ok (zeroBits w 0) := by
  have hb : flipSignBits w a = b := by
    refine eq_of_valueOf_eq (by simpa using ha0) ?_
    rw [valueOf_flipSignBits, eq_neg_of_add_eq_zero_right hsum]
  exact hb ▸ addBits_flipSignBits ha

/-- ADD meets its contract: the rows of R163, `+0` for an exact sum of 0, else the rounded sum. -/
theorem addMeets_of_ok (h : addBits w a b = .ok y) : AddMeets w a b y := by
  have row {z : BitVec w.totalBits} (hz : addBits w a b = .ok z) : y = z := Except.ok.inj (h.symm.trans hz)
  unfold AddMeets
  split
  case h_1 ha => exact row (addBits_nan_left ha)
  case h_2 hb ha => exact row (addBits_nan_right ha hb)
  case h_3 ha hb =>
    split
    case isTrue hs => exact row (addBits_infinities_same ha hb hs)
    case isFalse hs => exact row (addBits_infinities_opposite ha hb hs)
  case h_4 ha hb hb' => exact row (addBits_infinity_left ha (Kind.isFinite_of_ne hb hb'))
  case h_5 hb ha ha' => exact row (addBits_infinity_right (Kind.isFinite_of_ne ha ha') hb)
  case h_6 ha hb =>
    split
    case isTrue hs => exact row (addBits_zeros_same ha hb hs)
    case isFalse hs => exact row (addBits_zeros_opposite ha hb hs)
  case h_7 ha ha' hb hb' _ hzeros =>
    have hfin : (kindOf w a).isFinite = true := Kind.isFinite_of_ne ha ha'
    have hfin' : (kindOf w b).isFinite = true := Kind.isFinite_of_ne hb hb'
    split
    case isTrue hsum =>
      have ha0 : kindOf w a ≠ .zero := fun ha0 =>
        valueOf_ne_zero (hzeros ha0) (by simpa [valueOf_of_zero ha0] using hsum)
      exact row (addBits_of_sum_eq_zero hfin ha0 hsum)
    case isFalse hsum =>
      obtain ⟨z, hz, hround⟩ := addBits_roundsTo hfin hfin' hsum
      exact row hz ▸ hround

/-- MUL meets its contract: the rows of R191, else the rounded product. -/
theorem mulMeets_of_ok (h : mulBits w a b = .ok y) : MulMeets w a b y := by
  have row {z : BitVec w.totalBits} (hz : mulBits w a b = .ok z) : y = z := Except.ok.inj (h.symm.trans hz)
  simp only [MulMeets]
  split
  case h_1 ha => exact row (mulBits_nan_left ha)
  case h_2 hb ha => exact row (mulBits_nan_right ha hb)
  case h_3 ha hb => exact row (mulBits_infinity_zero ha hb)
  case h_4 ha hb => exact row (mulBits_zero_infinity ha hb)
  case h_5 ha hb hb0 => exact row (mulBits_infinity_left ha hb hb0)
  case h_6 hb ha ha0 _ => exact row (mulBits_infinity_right ha ha0 hb)
  case h_7 ha hb hb' => exact row (mulBits_zero_left ha (Kind.isFinite_of_ne hb hb'))
  case h_8 hb ha ha' _ => exact row (mulBits_zero_right (Kind.isFinite_of_ne ha ha') hb)
  case h_9 ha ha' ha0 hb hb' hb0 _ _ =>
    obtain ⟨z, hz, hround⟩ := mulComputed_roundsTo (signField w a ^^^ signField w b) ha0 hb0
    have hpath := mulBits_eq_computed (Kind.isFinite_of_ne ha ha') (Kind.isFinite_of_ne hb hb') ha0 hb0
    exact row (hpath.trans hz) ▸ hround

/-- DIV meets its contract: the rows of R211, else the rounded quotient. -/
theorem divMeets_of_ok (h : divBits w a b = .ok y) : DivMeets w a b y := by
  have row {z : BitVec w.totalBits} (hz : divBits w a b = .ok z) : y = z := Except.ok.inj (h.symm.trans hz)
  simp only [DivMeets]
  split
  case h_1 ha => exact row (divBits_nan_left ha)
  case h_2 hb ha => exact row (divBits_nan_right ha hb)
  case h_3 ha hb => exact row (divBits_infinities ha hb)
  case h_4 ha hb hb' => exact row (divBits_infinity_left ha (Kind.isFinite_of_ne hb hb'))
  case h_5 hb ha ha' => exact row (divBits_infinity_right (Kind.isFinite_of_ne ha ha') hb)
  case h_6 ha hb => exact row (divBits_zeros ha hb)
  case h_7 hb ha ha' ha0 => exact row (divBits_zero_right (Kind.isFinite_of_ne ha ha') ha0 hb)
  case h_8 ha hb hb' hb0 => exact row (divBits_zero_left ha (Kind.isFinite_of_ne hb hb') hb0)
  case h_9 ha ha' ha0 hb hb' hb0 _ _ =>
    obtain ⟨z, hz, hround⟩ := divComputed_roundsTo (signField w a ^^^ signField w b) ha0 hb0
    have hpath := divBits_eq_computed (Kind.isFinite_of_ne ha ha') (Kind.isFinite_of_ne hb hb') ha0 hb0
    exact row (hpath.trans hz) ▸ hround

end Operators

/-! ### the answer to a line meets the contract of its request -/

/-- An operation that returns on `y` shows a value with what is known of everything it returns. -/
theorem shownBy_onY_meets {w : WidthPolicy} {r : Except FaultCode (BitVec w.totalBits)}
    {P : BitVec w.totalBits → Prop} (hreturns : ∃ y, r = .ok y) (hmeets : ∀ {y}, r = .ok y → P y) :
    ∃ y, shownBy (onY r) = .value y ∧ P y := by
  obtain ⟨y, rfl⟩ := hreturns
  exact ⟨y, rfl, hmeets rfl⟩

/-- A rounding shift meets its contract: nearest even in range, `RS_SHIFT_RANGE` out of range (R124, R127, R263). -/
theorem roundShiftMeets_answer (w : WidthPolicy) (man : BitVec w.extBits) (n : ShiftAmount) :
    if n.toNat ≤ w.manBits + 1 then
      ∃ x exact, shownBy (answerRoundShift w man n) = .shifted x exact ∧
        RoundShiftMeets man.toNat n.toNat x.toNat exact
    else shownBy (answerRoundShift w man n) = .fault .rsShiftRange := by
  split
  case isTrue hn =>
    obtain ⟨x, exact, hround, hanswer⟩ := answerRoundShift_ok hn man
    exact ⟨x, exact, by rw [hanswer, shownBy_ok], roundShift_meets hround⟩
  case isFalse hn =>
    have hfault := shownBy_answerRoundShift w man n
    rwa [if_neg hn] at hfault

/-- R69: what a line returns or raises meets the contract of every request that decodes to it. -/
theorem meetsContract_answer {i : Instr} {r : Request i.policy} (h : decode i.policy r = i) :
    MeetsContract i.policy r (shownBy (answer i)) := by
  obtain ⟨hop, hports⟩ := (decodeInvertsEncode i r).mp h
  rw [hop, formatOf_encode] at hports
  rw [MeetsContract, hop]
  cases i with
  | add w a b =>
    obtain ⟨ha, hb⟩ := hports
    rw [ha, hb]
    exact shownBy_onY_meets (addBits_returns w a b) addMeets_of_ok
  | sub w a b =>
    obtain ⟨ha, hb⟩ := hports
    rw [ha, hb]
    exact shownBy_onY_meets (addBits_returns w a (flipSignBits w b)) addMeets_of_ok
  | mul w a b =>
    obtain ⟨ha, hb⟩ := hports
    rw [ha, hb]
    exact shownBy_onY_meets (mulBits_returns w a b) mulMeets_of_ok
  | div w a b =>
    obtain ⟨ha, hb⟩ := hports
    rw [ha, hb]
    exact shownBy_onY_meets (divBits_returns w a b) divMeets_of_ok
  | xorBits | andBits =>
    obtain ⟨ha, hb⟩ := hports
    rw [ha, hb]
    rfl
  | fromBits | toBits | decompose | classify | flipSign =>
    have ha := hports
    rw [ha]
    rfl
  | compose =>
    obtain ⟨hs, he, hm⟩ := hports
    rw [hs, he, hm]
    rfl
  | roundShift w man n =>
    obtain ⟨hman, hn⟩ := hports
    rw [hman, hn]
    exact roundShiftMeets_answer w man n
  | reserved13 | reserved14 | reserved15 => rfl

/-! ### the outputs follow the inputs (R291) -/

/-- A settled instance meets the contract of the request on its input ports. -/
theorem State.settle_meetsContract (s : State) (w : WidthPolicy) :
    MeetsContract w (s.inputs w) (s.settle.outputs w) := by
  obtain ⟨i, hi⟩ : ∃ i, decode w (s.inputs w) = i := ⟨_, rfl⟩
  obtain rfl : i.policy = w := hi ▸ decode_policy w _
  rw [s.settle_outputs hi]
  exact meetsContract_answer hi

/-- A state in which computing the outputs changes nothing shows the answers. -/
theorem Settled.answersShown {s : State} (h : Settled s) : AnswersShown s := by
  intro w
  have hmeets := s.settle_meetsContract w
  rwa [show s.settle = s from h] at hmeets

/-- Settled states that agree on an instance's inputs agree on its outputs. -/
theorem Settled.outputs_congr {s s' : State} (h : Settled s) (h' : Settled s') {w : WidthPolicy}
    (hin : s.inputs w = s'.inputs w) : s.outputs w = s'.outputs w := by
  have hout : s.settle.outputs w = s'.settle.outputs w := State.settle_outputs_congr hin
  rwa [show s.settle = s from h, show s'.settle = s' from h'] at hout

/-- After a line is issued its instance shows the answer to it. -/
theorem State.issue_outputs (s : State) (i : Instr) : (s.issue i).outputs i.policy = shownBy (answer i) :=
  State.settle_outputs _ (by simp)

/-- A step makes the instance it answers meet the contract of the request on its input ports. -/
theorem step_meetsContract {s t : State} (h : step s = .next t) :
    MeetsContract s.sel (s.inputs s.sel) (t.outputs s.sel) := by
  obtain ⟨hshown, -⟩ := step_shows h
  have hmeets := meetsContract_answer s.decode_pendingLine
  rwa [← hshown, s.pendingLine_policy] at hmeets

/-- An unmarked step leads on (R265). -/
theorem exists_step_eq_next {s : State} (hs : s.faultMark = none) : ∃ t, step s = .next t := by
  obtain ⟨t, ht⟩ := everyLineIsAnswered s.pendingLine s
  exact ⟨t, step_eq_next_iff.mpr ⟨hs, ht⟩⟩

/-- Settles O20: the instance answered meets its contract, and the other instance's ports stay. -/
theorem stepKeepsAnswersShown : Obligations.StepKeepsAnswersShown := by
  intro s t hs h w
  obtain ⟨-, -, hin, hother⟩ := step_shows h
  rw [hin]
  by_cases hw : w = s.sel
  · subst hw
    exact step_meetsContract h
  · rw [hother w (by rwa [s.pendingLine_policy])]
    exact hs w

/-- Settles O15: a step from a settled state changes no port, and settling reads and writes the ports alone. -/
theorem stepKeepsPortsSettled : Obligations.StepKeepsPortsSettled := by
  intro s t hs h
  obtain ⟨-, hports⟩ := stepAnswersWhatThePortsShow s t hs h
  refine State.eq_of_ports (by simp) (by simp) (fun w => ?_) (by simp)
  obtain ⟨hin, hout⟩ := hports w
  calc t.settle.outputs w = s.settle.outputs w := State.settle_outputs_congr hin
    _ = s.outputs w := by rw [show s.settle = s from hs]
    _ = t.outputs w := hout.symm

/-- Settles O17: presenting settles the state, and issuing a line or placing a word is presenting. -/
theorem outputsFollowInputsAtOnce : Obligations.OutputsFollowInputsAtOnce := by
  refine ⟨State.present_settle, fun s i => s.present_settle _ _, fun s _ _ => s.present_settle _ _,
    fun s s' w h h' => h.outputs_congr h', fun i s t h => ?_⟩
  obtain ⟨hshown, -⟩ := exec_shows h
  rw [s.issue_outputs, hshown]

/-- Settles O19: presenting a request settles the state. -/
theorem presentShowsAnswers : Obligations.PresentShowsAnswers :=
  fun s w r => Settled.answersShown (s.present_settle w r)

/-- Settles O22: the step leads on, and the instance it answers is the selected one. -/
theorem stepAnswersByContract : Obligations.StepAnswersByContract := by
  intro s hs
  obtain ⟨t, ht⟩ := exists_step_eq_next hs
  exact ⟨t, ht, step_meetsContract ht⟩

/-- Settles O16: both instances show the sum of +0 and +0. -/
theorem resetPortsAreSettled : Obligations.ResetPortsAreSettled := rfl

/-- Settles O21: the state after reset is settled. -/
theorem resetShowsAnswers : Obligations.ResetShowsAnswers := Settled.answersShown resetPortsAreSettled

end Sys2Proof.Machine
